-- ==== Sys2Proof/Word.lean ====
section
/-! DEFINITION. Sys2Proof/Word.lean: the two word types of the IDN45 CORE (spec R8, R10). -/

namespace Sys2Proof

/-- A u64: one lane, DIN, DOUT, STATUS, a command value (R8). -/
abbrev Word := BitVec 64

/-- A byte: one element of a byte sequence or one character of a string (R10). -/
abbrev Byte := BitVec 8

end Sys2Proof
end

