-- ==== Sys2Proof/Syntax.lean ====
section
/-! DEFINITION. Sys2Proof/Syntax.lean: the nine commands of spec/opcode_table.json (R74). -/

namespace Sys2Proof

/-- The format selector of DIGEST (R161). -/
inductive Format where
  | standard   -- FMT = 0
  | uuid       -- FMT = 1
  | short      -- FMT = 2
  deriving DecidableEq, Repr

/-- A command (R74). N, FMT and IDX are the ARG byte, read unsigned (R72). -/
inductive Instr where
  | nop
  | init
  | absorb (n : Nat)
  | finalize
  | sqbegin
  | squeeze (n : Nat)
  | digest (fmt : Format)
  | permute
  | ldlane (idx : Nat)
  deriving DecidableEq, Repr

end Sys2Proof
end

