-- ==== Sys2Proof/WellFormed.lean ====
section
/-! DEFINITION. Sys2Proof/WellFormed.lean: the legal operand values of R72. -/

namespace Sys2Proof

/-- The operands lie in the legal ranges of R72: N in 1..8, IDX in 0..24. FMT is in 0..2 by its type. -/
def Instr.wellFormed : Instr → Bool
  | .nop => true
  | .init => true
  | .absorb n => decide (1 ≤ n ∧ n ≤ 8)
  | .finalize => true
  | .sqbegin => true
  | .squeeze n => decide (1 ≤ n ∧ n ≤ 8)
  | .digest _ => true
  | .permute => true
  | .ldlane idx => decide (idx ≤ 24)

end Sys2Proof
end

