-- ==== Sys2Proof/Decode.lean ====
section
/-! DEFINITION. Sys2Proof/Decode.lean: the decoder (R70 to R76), total on every 64-bit command value and rejecting by
name, and the encoder written from the same opcode map (R74). -/

namespace Sys2Proof

/-- Why a command value is illegal (R75). -/
inductive DecodeError where
  | highBits        -- R75 (a): w[63:32] is not zero
  | reservedField   -- R75 (b): RSV = w[23:8] is not zero
  | opcode          -- R75 (c): OPC in 0x09..0xFF
  | argument        -- R75 (d) to (g): ARG outside the opcode's legal range
  deriving DecidableEq, Repr

/-- w[63:32] (R70). -/
def fieldHigh (w : Word) : BitVec 32 := w.extractLsb' 32 32

/-- OPC = cw[31:24] (R71). -/
def fieldOpc (w : Word) : BitVec 8 := w.extractLsb' 24 8

/-- RSV = cw[23:8] (R71). -/
def fieldRsv (w : Word) : BitVec 16 := w.extractLsb' 8 16

/-- ARG = cw[7:0] (R71). -/
def fieldArg (w : Word) : BitVec 8 := w.extractLsb' 0 8

/-- The format a legal FMT selects (R161). -/
def formatOfArg : Nat → Option Format
  | 0 => some .standard
  | 1 => some .uuid
  | 2 => some .short
  | _ => none

/-- The command an opcode names, with ARG taken as it stands (R74); the ranges of ARG are checked by `decode`. -/
def instrOfFields (opc arg : Nat) : Except DecodeError Instr :=
  match opc with
  | 0x00 => if arg = 0 then .ok .nop else .error .argument
  | 0x01 => if arg = 0 then .ok .init else .error .argument
  | 0x02 => .ok (.absorb arg)
  | 0x03 => if arg = 0 then .ok .finalize else .error .argument
  | 0x04 => if arg = 0 then .ok .sqbegin else .error .argument
  | 0x05 => .ok (.squeeze arg)
  | 0x06 => match formatOfArg arg with
    | some fmt => .ok (.digest fmt)
    | none => .error .argument
  | 0x07 => if arg = 0 then .ok .permute else .error .argument
  | 0x08 => .ok (.ldlane arg)
  | _ => .error .opcode

/-- The decoder of R74: total on every 64-bit value; every value that is no row is rejected by name (R75). -/
def decode (w : Word) : Except DecodeError Instr :=
  if fieldHigh w ≠ 0 then .error .highBits
  else if fieldRsv w ≠ 0 then .error .reservedField
  else match instrOfFields (fieldOpc w).toNat (fieldArg w).toNat with
    | .error e => .error e
    | .ok i => if i.wellFormed then .ok i else .error .argument

/-- OPC of a command (R74). -/
def Instr.opc : Instr → BitVec 8
  | .nop => 0x00
  | .init => 0x01
  | .absorb _ => 0x02
  | .finalize => 0x03
  | .sqbegin => 0x04
  | .squeeze _ => 0x05
  | .digest _ => 0x06
  | .permute => 0x07
  | .ldlane _ => 0x08

/-- The FMT numbering of R161. -/
def Format.arg : Format → BitVec 8
  | .standard => 0
  | .uuid => 1
  | .short => 2

/-- ARG of a command (R72): zero where the command has no operand. -/
def Instr.arg : Instr → BitVec 8
  | .nop => 0
  | .init => 0
  | .absorb n => BitVec.ofNat 8 n
  | .finalize => 0
  | .sqbegin => 0
  | .squeeze n => BitVec.ofNat 8 n
  | .digest fmt => fmt.arg
  | .permute => 0
  | .ldlane idx => BitVec.ofNat 8 idx

/-- The 64-bit command value of a well-formed command (R70, R71): bits 63:32 zero, OPC, RSV zero, ARG. -/
def encode (i : Instr) : Word := 0#32 ++ i.opc ++ 0#16 ++ i.arg

/-- The host's question to the decoder: the command read from a value of `nbits` bits, the bits above them zero.
A command value has 64 bits (R70); a number that does not fit is refused. -/
def decodeTableWord (nbits w : Nat) : Option Instr :=
  if w % 2 ^ nbits < 2 ^ 64 then (decode (BitVec.ofNat 64 (w % 2 ^ nbits))).toOption else none

end Sys2Proof
end

