-- ==== Sys2Proof/Config.lean ====
section
/-! DEFINITION. Sys2Proof/Config.lean: the parameters of R6 (fixed) and R7 (open), and the one value the spec
leaves unspecified (R57, U4) as a free value. BUSY_LATENCY, the other open parameter of R7, is drawn anew for
each command, so it is an argument of each host write (Machine/State.lean, HostEvent) and not a constant. -/

namespace Sys2Proof

/-- NLANES of R6. -/
@[simp] def Config.nLanes : Nat := 25

/-- RATE of R6, in bytes: 17 lanes. -/
@[simp] def Config.rate : Nat := 136

/-- The 17 lanes of the rate region (R6, R23). -/
@[simp] def Config.rateLanes : Nat := 17

/-- NROUNDS of R6. -/
@[simp] def Config.nRounds : Nat := 24

/-- PAD_FIRST of R6. -/
@[simp] def Config.padFirst : Byte := 0x06

/-- PAD_LAST of R6. -/
@[simp] def Config.padLast : Byte := 0x80

/-- OUTSTR_MAX of R6. -/
@[simp] def Config.outstrMax : Nat := 64

/-- The size of the register window in bytes (R50). -/
@[simp] def Config.windowBytes : Nat := 0x400

/-- IDN45_BASE (R7, U2) without its three low bits: the platform's choice, so a constant with no body.
DESIGN CHOICE, log entry 3. -/
opaque Config.baseIndex : BitVec 61

/-- IDN45_BASE (R7): any 64-bit-aligned host address. -/
def Config.idn45Base : Word := Config.baseIndex ++ 0#3

/-- The value of the k-th read of DOUT, LANE or OUT that the host makes while BUSY = 1: unspecified (R57, U4),
so a free value, drawn by the counter State.busyReads. Log entry 4. -/
opaque Config.busyRead : Nat → Word

end Sys2Proof
end

