-- ==== Sys2Proof/Machine/State.lean ====
section
/-! DEFINITION. Sys2Proof/Machine/State.lean: every piece of state the spec gives the engine (R20 to R37), the host's
side of the register window as plain data, the reasons a step can stop, and the state after reset. -/

namespace Sys2Proof.Machine

/-- The lane store (R20): lane i is A[i mod 5][i div 5] (R21). -/
abbrev Lanes := Vector Word 25

/-- PHASE (R25). -/
inductive Phase where
  | absorbing   -- 0
  | squeezing   -- 1
  | done        -- 2
  | faulted     -- 3
  deriving DecidableEq, Repr

/-- ERR (R28, R202). Codes 4 to 15 are never produced. -/
inductive ErrCode where
  | none       -- 0
  | contract   -- 1
  | illegal    -- 2
  | busywr     -- 3
  deriving DecidableEq, Repr

/-- What the host does next: a MemRead or a MemWrite (R11, R51) or a reset (R220). `width` is the access's width in
bytes and `off` its host address minus IDN45_BASE, modulo 2^64 (log entry 3). A write carries `latency`, the
BUSY_LATENCY drawn for it (R7, R223), which only an accepted write to CMD uses (log entry 2). -/
inductive HostEvent where
  | read (width : Nat) (off : Word)
  | write (width : Nat) (off : Word) (value : Word) (latency : Nat)
  | reset
  deriving DecidableEq, Repr

/-- The command in progress (R223): its value, and how many more host accesses see BUSY = 1 before its effects
appear. -/
structure Pending where
  cmd  : Word
  left : Nat
  deriving DecidableEq, Repr

/-- The engine's state (R20 to R34), then the model's own three fields. -/
structure State where
  /-- R20. -/
  lanes : Lanes
  /-- R24; BUFCNT is its length. -/
  buf : List Byte
  /-- R25. -/
  phase : Phase
  /-- R26. -/
  fin : Bool
  /-- R27. -/
  sqpos : Nat
  /-- R28. -/
  err : ErrCode
  /-- R29. -/
  din : Word
  /-- R30. -/
  dout : Word
  /-- OUTSTR of R31. -/
  outstr : Vector Byte 64
  /-- OUTLEN of R31. -/
  outlen : Nat
  /-- VIOL of R34. -/
  viol : Bool
  /-- BUSY of R34, with the command in progress (R223); log entry 6. -/
  pending : Option Pending
  /-- The model's own: what the host does next, oldest first; log entry 1. -/
  host : List HostEvent
  /-- The model's own: the value the last host read returned; log entry 5. -/
  rdata : Word
  /-- The model's own: how many unspecified reads (R57) have been drawn; log entry 4. -/
  busyReads : Nat
  deriving DecidableEq, Repr

/-- BUSY (R34): a command is in progress. -/
def State.busy (s : State) : Bool := s.pending.isSome

/-- The reset column of R37 (R220); the model's own fields are empty or zero (log entries 1, 4, 5). -/
def State.reset : State where
  lanes := Vector.replicate 25 0
  buf := []
  phase := .absorbing
  fin := false
  sqpos := 0
  err := .none
  din := 0
  dout := 0
  outstr := Vector.replicate 64 0
  outlen := 0
  viol := false
  pending := none
  host := []
  rdata := 0
  busyReads := 0

/-- Why the machine is stuck: a state that the spec's invariants exclude and no rule applies to (U8). The engine's own
faults (R201) are next states, not these. -/
inductive Fault where
  /-- ABSORB, FINALIZE or DIGEST finds more than 135 bytes in buf (R142, U8). Safe: no run reaches such a state. -/
  | bufOverrun
  /-- SQUEEZE finds SQPOS above 136 (R27). Safe: no run reaches such a state. -/
  | cursorOverrun
  deriving DecidableEq, Repr

/-- Why a step is refused. -/
inductive Refusal where
  /-- A dispatch arm with no meaning yet. Safe: the machine stops. -/
  | notModelled (mnemonic : String)
  /-- A host access that is not 64 bits wide (R51). Safe: the spec gives it no meaning. -/
  | accessWidth
  /-- A host access at an offset that is no multiple of 8 (R51). Safe: the spec gives it no meaning. -/
  | accessAlignment
  /-- A host access outside the 1024-byte window (R51, U5). Safe: the spec gives it no meaning. -/
  | accessOutsideWindow
  deriving DecidableEq, Repr

/-- The outcome of a command or a step. -/
abbrev Result := Host.Outcome State Fault Refusal

end Sys2Proof.Machine
end

