-- ==== Sys2Proof/Machine/Ops.lean ====
section
/-! DEFINITION. Sys2Proof/Machine/Ops.lean: the pseudocode primitives of R8 to R11 (rotation, byte sequences, packing),
the lane store's ports (R20, R21), fault entry (R201), the way out of FAULTED (R207), and the dispatch every command
passes (R200, R203). -/

namespace Sys2Proof.Machine

/-- `rotl(v, n)` of R9: left rotation, the amount reduced mod 64. -/
def rotl (v : Word) (n : Nat) : Word := v.rotateLeft n

/-- `byte_k(v)` of R10. -/
def byteOf (v : Word) (k : Nat) : Byte := v.extractLsb' (8 * k) 8

/-- `LE64` of R10 on up to 8 bytes: byte k at bits [8k+7:8k], absent bytes zero. -/
def packLE : List Byte → Word
  | [] => 0
  | b :: bs => b.setWidth 64 ||| (packLE bs <<< 8)

/-- `zeros(n)` of R10. -/
def zeros (n : Nat) : List Byte := List.replicate n 0

/-- `resize(s, n)` of R10: truncate or zero-extend to exactly n bytes. -/
def resize (bs : List Byte) (n : Nat) : List Byte := bs.take n ++ zeros (n - min n bs.length)

/-- `lane[i]` (R11, R120). -/
def laneAt (l : Lanes) (i : Nat) : Word := l.toList.getD i 0

/-- `A[x][y] = lane[5*y + x]` (R21). -/
def matAt (l : Lanes) (x y : Nat) : Word := laneAt l (5 * y + x)

/-- The lane store whose lane i is `f i`. -/
def lanesOf (f : Nat → Word) : Lanes := ⟨⟨(List.range 25).map f⟩, by simp⟩

/-- The lane store with `A[x][y] = f x y` (R21). -/
def matOf (f : Nat → Nat → Word) : Lanes := lanesOf fun i => f (i % 5) (i / 5)

/-- `lane[i] <- v` (R11). -/
def setLane (l : Lanes) (i : Nat) (v : Word) : Lanes := l.setIfInBounds i v

/-- `st_byte(j)` (R21). -/
def stByte (l : Lanes) (j : Nat) : Byte := byteOf (laneAt l (j / 8)) (j % 8)

/-- `[st_byte(0), …, st_byte(135)]`: the rate region (R23, R141). -/
def rateBytes (l : Lanes) : List Byte := (List.range 136).map (stByte l)

/-- `raise Fault(code)` (R201): exactly this; nothing else changes, nothing is saved, nothing is jumped to. -/
def raiseFault (code : ErrCode) (s : State) : State := { s with err := code, phase := .faulted }

/-- Leaving FAULTED (R207), and starting any session: the effect of INIT (R131). DIN is unchanged. -/
def newSession (s : State) : State :=
  { s with
    lanes := Vector.replicate 25 0
    buf := []
    phase := .absorbing
    fin := false
    err := .none
    sqpos := 0
    dout := 0
    outstr := Vector.replicate 64 0
    outlen := 0 }

/-- `Reset()` of R220: every piece of engine state at its reset value, the command in progress abandoned. What the host
does next, what it last read and the count of unspecified reads are not the engine's (log entry 10). -/
def resetEngine (s : State) : State :=
  { State.reset with host := s.host, rdata := s.rdata, busyReads := s.busyReads }

/-- `Legal(cmd)` of R203; FAULTED is handled before it (R200). -/
def legalIn : Instr → Phase → Bool
  | .nop, .absorbing => true
  | .nop, .squeezing => true
  | .nop, .done => true
  | .nop, .faulted => false
  | .init, .absorbing => true
  | .init, .squeezing => true
  | .init, .done => true
  | .init, .faulted => true
  | .absorb _, .absorbing => true
  | .absorb _, .squeezing => false
  | .absorb _, .done => false
  | .absorb _, .faulted => false
  | .finalize, .absorbing => true
  | .finalize, .squeezing => true
  | .finalize, .done => false
  | .finalize, .faulted => false
  | .sqbegin, .absorbing => false
  | .sqbegin, .squeezing => true
  | .sqbegin, .done => false
  | .sqbegin, .faulted => false
  | .squeeze _, .absorbing => false
  | .squeeze _, .squeezing => true
  | .squeeze _, .done => false
  | .squeeze _, .faulted => false
  | .digest _, .absorbing => true
  | .digest _, .squeezing => true
  | .digest _, .done => false
  | .digest _, .faulted => false
  | .permute, .absorbing => true
  | .permute, .squeezing => true
  | .permute, .done => false
  | .permute, .faulted => false
  | .ldlane _, .absorbing => true
  | .ldlane _, .squeezing => true
  | .ldlane _, .done => false
  | .ldlane _, .faulted => false

/-- Cases 2 to 5 of the dispatch of R200, for the command `i` with the effect `effect`. An operand outside its legal
range is case 3 (log entry 16: no decoded value carries one). -/
def dispatchCommand (i : Instr) (effect : State → Result) (s : State) : Result :=
  if s.phase = .faulted ∧ i ≠ .init then .next s
  else if i.wellFormed = false then .next (raiseFault .illegal s)
  else if legalIn i s.phase = false then .next (raiseFault .contract s)
  else effect s

/-- What an illegal command value does (R200 cases 2 and 3, R204): ignored in FAULTED, else Fault(ILLEGAL). -/
def rejectCommand (s : State) : State :=
  if s.phase = .faulted then s else raiseFault .illegal s

end Sys2Proof.Machine
end

