-- ==== Sys2Proof/Machine/Operands.lean ====
section
/-! DEFINITION. Sys2Proof/Machine/Operands.lean: the data operands of R73 (DIN in, DOUT out) and the digest length a
format selector stands for (R161). The ARG operand itself is decoded in Sys2Proof/Decode.lean (R72). -/

namespace Sys2Proof.Machine

/-- The bytes ABSORB N takes: `[byte_0(DIN), …, byte_(N−1)(DIN)]`, low byte first (R73). -/
def dinBytes (n : Nat) (din : Word) : List Byte := (List.range n).map (byteOf din)

/-- The value SQUEEZE leaves in DOUT: byte k at bits [8k+7:8k], the bytes above zero (R73, R140). -/
def doutOf (bytes : List Byte) : Word := packLE bytes

/-- The lane value LDLANE takes: all 64 bits of DIN (R73). -/
def dinLane (s : State) : Word := s.din

/-- DIGEST_LEN(FMT) in bytes (R161). -/
def digestLen : Format → Nat
  | .standard => 32
  | .uuid => 12
  | .short => 6

end Sys2Proof.Machine
end

