-- ==== Sys2Proof/Machine/LaneStore.lean ====
section
/-! DEFINITION. Sys2Proof/Machine/LaneStore.lean: the XOR unit (R121), LDLANE (R122) and NOP (R123). -/

namespace Sys2Proof.Machine

/-- `XorBlock(blk)` (R121), in lanes: `lane[i] <- lane[i] ^ LE64(blk[8i..8i+7])` for i = 0..16, the capacity lanes
unchanged. Laws/Lanes.lean proves that this is the rule's byte-wise XOR. -/
def xorBlock (blk : List Byte) (l : Lanes) : Lanes :=
  lanesOf fun i =>
    if i < Config.rateLanes then laneAt l i ^^^ packLE ((blk.drop (8 * i)).take 8) else laneAt l i

/-- LDLANE IDX (R122): a plain write, not an XOR. -/
def execLdlane (idx : Nat) (s : State) : Result :=
  dispatchCommand (.ldlane idx) (fun s => .next { s with lanes := setLane s.lanes idx (dinLane s) }) s

/-- NOP (R123). -/
def execNop (s : State) : Result :=
  dispatchCommand .nop (fun s => .next s) s

end Sys2Proof.Machine
end

