-- ==== Sys2Proof/Machine/Permutation.lean ====
section
/-! DEFINITION. Sys2Proof/Machine/Permutation.lean: the permutation engine (R100 to R112) and PERMUTE (R113). -/

namespace Sys2Proof.Machine

/-- `C[x]`, the parity of column x (R102). -/
def columnParity (a : Lanes) (x : Nat) : Word :=
  matAt a x 0 ^^^ matAt a x 1 ^^^ matAt a x 2 ^^^ matAt a x 3 ^^^ matAt a x 4

/-- `D[x] = C[x-1] ^ rotl(C[x+1], 1)`, indices mod 5 (R103). -/
def thetaMix (a : Lanes) (x : Nat) : Word :=
  columnParity a ((x + 4) % 5) ^^^ rotl (columnParity a ((x + 1) % 5)) 1

/-- Theta: `E[x][y] = A[x][y] ^ D[x]` (R104). -/
def theta (a : Lanes) : Lanes := matOf fun x y => matAt a x y ^^^ thetaMix a x

/-- `triangular(r)` (R105). -/
def triangular (r : Nat) : Nat := (r + 1) * (r + 2) / 2 % 64

/-- `ROT(x, y, r)` (R106). -/
def rotAmount (x y r : Nat) : Nat := ((11 * x + 23 * y) % 64 + triangular r) % 64

/-- Rho and pi: `B[y][(2x+3y) mod 5] = rotl(E[x][y], ROT(x, y, r))` (R107), written at the destination: position
(p, q) is reached from (x, y) = ((p + 3q) mod 5, p), the inverse of that move. -/
def rhoPi (r : Nat) (e : Lanes) : Lanes :=
  matOf fun p q => rotl (matAt e ((p + 3 * q) % 5) p) (rotAmount ((p + 3 * q) % 5) p r)

/-- Chi: `F[x][y] = B[x][y] ^ (~B[x+1][y] & B[x+2][y])`, indices mod 5, all of B read before any F (R108, R109). -/
def chi (b : Lanes) : Lanes :=
  matOf fun x y => matAt b x y ^^^ (~~~ matAt b ((x + 1) % 5) y &&& matAt b ((x + 2) % 5) y)

/-- `RC[0..23]` (R111); PRESUMED by the spec from general knowledge, log entry 12. -/
def roundConstants : List Word :=
  [0x0000000000000001, 0x0000000000008082, 0x800000000000808A, 0x8000000080008000,
   0x000000000000808B, 0x0000000080000001, 0x8000000080008081, 0x8000000000008009,
   0x000000000000008A, 0x0000000000000088, 0x0000000080008009, 0x000000008000000A]
  ++
  [0x000000008000808B, 0x800000000000008B, 0x8000000000008089, 0x8000000000008003,
   0x8000000000008002, 0x8000000000000080, 0x000000000000800A, 0x800000008000000A,
   0x8000000080008081, 0x8000000000008080, 0x0000000080000001, 0x8000000080008008]

/-- `RC[r]` (R111). -/
def roundConstant (r : Nat) : Word := roundConstants.getD r 0

/-- Iota: `F[0][0] = F[0][0] ^ RC[r]`, no other lane (R110). -/
def iota (r : Nat) (f : Lanes) : Lanes := setLane f 0 (matAt f 0 0 ^^^ roundConstant r)

/-- `Round(r, A)`: theta, rho+pi, chi, iota (R100). -/
def permRound (r : Nat) (a : Lanes) : Lanes := iota r (chi (rhoPi r (theta a)))

/-- `Perm`: rounds 0 to 23 in order (R100, R101). -/
def perm (a : Lanes) : Lanes := (List.range Config.nRounds).foldl (fun a r => permRound r a) a

/-- PERMUTE (R113). -/
def execPermute (s : State) : Result :=
  dispatchCommand .permute (fun s => .next { s with lanes := perm s.lanes }) s

end Sys2Proof.Machine
end

