-- ==== Sys2Proof/Machine/Sponge.lean ====
section
/-! DEFINITION. Sys2Proof/Machine/Sponge.lean: the sponge state machine (R130 to R142): INIT, ABSORB, FINALIZE, SQBEGIN
and SQUEEZE over the primitives AbsorbByte, PadBlock, DoFinalize and SqueezeByte. -/

namespace Sys2Proof.Machine

/-- Absorb one full block: XorBlock, then Perm (R132, R136, R227). -/
def absorbBlock (blk : List Byte) (l : Lanes) : Lanes := perm (xorBlock blk l)

/-- `AbsorbByte(b)` (R132). -/
def absorbByte (s : State) (b : Byte) : State :=
  if (s.buf ++ [b]).length = Config.rate then
    { s with lanes := absorbBlock (s.buf ++ [b]) s.lanes, buf := [] }
  else { s with buf := s.buf ++ [b] }

/-- AbsorbByte of each byte of a sequence in order (R133, R134). -/
def absorbBytes (bytes : List Byte) (s : State) : State := bytes.foldl absorbByte s

/-- `PadBlock(buf)` (R135): the literal procedure, so 135 buffered bytes carry no 0x06 (C3). -/
def padBlock (buf : List Byte) : List Byte :=
  resize (buf ++ [Config.padFirst]) (Config.rate - 1) ++ [Config.padLast]

/-- `DoFinalize()` (R136). -/
def doFinalize (s : State) : State :=
  { s with
    lanes := absorbBlock (padBlock s.buf) s.lanes
    buf := []
    phase := .squeezing
    fin := true
    sqpos := 0 }

/-- `if PHASE = ABSORBING: DoFinalize()`, the first line of FINALIZE and DIGEST (R137, R160): finalizing twice does not
pad twice. -/
def finalizeOnce (s : State) : State := if s.phase = .absorbing then doFinalize s else s

/-- The lazy permutation of `SqueezeByte()`: run when the current block is used up (R138). -/
def nextBlock (s : State) : State :=
  if s.sqpos = Config.rate then { s with lanes := perm s.lanes, sqpos := 0 } else s

/-- `SqueezeByte()` (R138): the byte and the state after it. -/
def squeezeByte (s : State) : Byte × State :=
  (stByte (nextBlock s).lanes (nextBlock s).sqpos, { nextBlock s with sqpos := (nextBlock s).sqpos + 1 })

/-- n applications of SqueezeByte: the bytes in order and the state after them (R140, R160). -/
def squeezeBytes : Nat → State → List Byte × State
  | 0, s => ([], s)
  | n + 1, s =>
    ((squeezeByte s).1 :: (squeezeBytes n (squeezeByte s).2).1, (squeezeBytes n (squeezeByte s).2).2)

/-- A command that reads or fills buf runs while BUFCNT ≤ 135; beyond that no rule applies (R142, U8). -/
def withBuffer (effect : State → State) (s : State) : Result :=
  if s.buf.length < Config.rate then .next (effect s) else .fault .bufOverrun

/-- A command that reads at the cursor runs while SQPOS ≤ 136; beyond that no rule applies (R27). -/
def withCursor (effect : State → State) (s : State) : Result :=
  if s.sqpos ≤ Config.rate then .next (effect s) else .fault .cursorOverrun

/-- INIT (R131): legal in every phase, the only command that leaves FAULTED (R207). -/
def execInit (s : State) : Result :=
  dispatchCommand .init (fun s => .next (newSession s)) s

/-- ABSORB N (R133). -/
def execAbsorb (n : Nat) (s : State) : Result :=
  dispatchCommand (.absorb n) (withBuffer fun s => absorbBytes (dinBytes n s.din) s) s

/-- FINALIZE (R137): DoFinalize in ABSORBING, nothing in SQUEEZING. -/
def execFinalize (s : State) : Result :=
  dispatchCommand .finalize (withBuffer finalizeOnce) s

/-- SQBEGIN (R139). -/
def execSqbegin (s : State) : Result :=
  dispatchCommand .sqbegin (fun s => .next { s with sqpos := 0 }) s

/-- The effect of SQUEEZE N: N bytes, packed into DOUT (R140). -/
def squeezeToDout (n : Nat) (s : State) : State :=
  { (squeezeBytes n s).2 with dout := doutOf (squeezeBytes n s).1 }

/-- SQUEEZE N (R140). -/
def execSqueeze (n : Nat) (s : State) : Result :=
  dispatchCommand (.squeeze n) (withCursor (squeezeToDout n)) s

end Sys2Proof.Machine
end

