-- ==== Sys2Proof/Machine/Formatter.lean ====
section
/-! DEFINITION. Sys2Proof/Machine/Formatter.lean: the output formatter (R161 to R167) and DIGEST (R160). -/

namespace Sys2Proof.Machine

/-- The ASCII code of the hex digit of value d < 16, lowercase (R162, R167). -/
def hexDigit (d : Nat) : Byte := if d < 10 then BitVec.ofNat 8 (0x30 + d) else BitVec.ofNat 8 (0x61 + (d - 10))

/-- The value of a hex digit's code (R165). -/
def hexValue (c : Byte) : Nat := if c.toNat < 0x61 then c.toNat - 0x30 else c.toNat - 0x61 + 10

/-- `HexEncode(raw)`: two digits a byte, high nibble first (R162). -/
def hexEncode (raw : List Byte) : List Byte :=
  raw.flatMap fun b => [hexDigit (b.toNat / 16), hexDigit (b.toNat % 16)]

/-- `IDN45-` (R6 UUID_PREFIX, R167). -/
def uuidPrefix : List Byte := [0x49, 0x44, 0x4E, 0x34, 0x35, 0x2D]

/-- `-` (R167). -/
def charDash : Byte := 0x2D

/-- `:` (R167). -/
def charColon : Byte := 0x3A

/-- `Format(1, h)` (R164): three groups of 8 hex characters. -/
def formatUuid (h : List Byte) : List Byte :=
  uuidPrefix ++ h.take 8 ++ [charDash] ++ (h.drop 8).take 8 ++ [charDash] ++ (h.drop 16).take 8

/-- The colon's index p of a Short string (R165). -/
def colonIndex (h : List Byte) : Nat := hexValue (h.getD 11 0) % 10 + 1

/-- `Format(2, h)` (R165): the colon after the first p of the 11 body characters. -/
def formatShort (h : List Byte) : List Byte :=
  (h.take 11).take (colonIndex h) ++ [charColon] ++ (h.take 11).drop (colonIndex h)

/-- `Format(FMT, h)` (R163 to R165). -/
def formatString : Format → List Byte → List Byte
  | .standard, h => h
  | .uuid, h => formatUuid h
  | .short, h => formatShort h

/-- OUTSTR holding a string, zero after it (R166). -/
def outstrOf (str : List Byte) : Vector Byte 64 := ⟨⟨(List.range 64).map fun k => str.getD k 0⟩, by simp⟩

/-- The OUTSTR write of DIGEST (R166). -/
def writeOutstr (str : List Byte) (s : State) : State :=
  { s with outstr := outstrOf str, outlen := str.length }

/-- The lines of DIGEST after the finalize step (R160): a fresh squeeze call, the string, PHASE <- DONE. -/
def digestOut (fmt : Format) (s : State) : State :=
  { writeOutstr (formatString fmt (hexEncode (squeezeBytes (digestLen fmt) { s with sqpos := 0 }).1))
      (squeezeBytes (digestLen fmt) { s with sqpos := 0 }).2 with
    phase := .done }

/-- DIGEST FMT (R160). -/
def execDigest (fmt : Format) (s : State) : Result :=
  dispatchCommand (.digest fmt) (withBuffer fun s => digestOut fmt (finalizeOnce s)) s

end Sys2Proof.Machine
end

