-- ==== Sys2Proof/Machine/Dispatch.lean ====
section
/-! DEFINITION. Sys2Proof/Machine/Dispatch.lean: one arm per command: Outcome(w) of R223 for a legal value w, that is
cases 2, 4 and 5 of R200. -/

namespace Sys2Proof.Machine

def exec (i : Instr) (s : State) : Host.Outcome State Fault Refusal :=
  match i with
  | .nop => Sys2Proof.Machine.execNop s
  | .init => Sys2Proof.Machine.execInit s
  | .absorb n => Sys2Proof.Machine.execAbsorb n s
  | .finalize => Sys2Proof.Machine.execFinalize s
  | .sqbegin => Sys2Proof.Machine.execSqbegin s
  | .squeeze n => Sys2Proof.Machine.execSqueeze n s
  | .digest fmt => Sys2Proof.Machine.execDigest fmt s
  | .permute => Sys2Proof.Machine.execPermute s
  | .ldlane idx => Sys2Proof.Machine.execLdlane idx s

end Sys2Proof.Machine
end

