-- ==== Sys2Proof/Machine/Flags.lean ====
section
/-! DEFINITION. Sys2Proof/Machine/Flags.lean: the STATUS register (R32) and the codes of its fields (R25, R28). -/

namespace Sys2Proof.Machine

/-- PHASE's encoding (R25). -/
def Phase.code : Phase → BitVec 2
  | .absorbing => 0
  | .squeezing => 1
  | .done => 2
  | .faulted => 3

/-- ERR's encoding (R28). -/
def ErrCode.code : ErrCode → BitVec 4
  | .none => 0
  | .contract => 1
  | .illegal => 2
  | .busywr => 3

/-- STATUS (R32): reserved[63:31], OUTLEN[30:24], SQPOS[23:16], BUFCNT[15:8], ERR[7:4], FIN[3], BUSY[2], PHASE[1:0]. -/
def statusWord (s : State) : Word :=
  0#33 ++ BitVec.ofNat 7 s.outlen ++ BitVec.ofNat 8 s.sqpos ++ BitVec.ofNat 8 s.buf.length ++ s.err.code
    ++ BitVec.ofBool s.fin ++ BitVec.ofBool s.busy ++ s.phase.code

end Sys2Proof.Machine
end

