-- ==== Sys2Proof/Machine/Window.lean ====
section
/-! DEFINITION. Sys2Proof/Machine/Window.lean: the register window (R50 to R58), command issue (R200, R223), the BUSY
protocol with VIOL and BUSYWR (R205, R223), and reset (R220). -/

namespace Sys2Proof.Machine

/-- The registers of the window (R50). -/
inductive WindowReg where
  | cmd
  | din
  | dout
  | status
  | lane (i : Nat)
  | out (k : Nat)
  | reserved
  deriving DecidableEq, Repr

/-- The window map (R50), at an aligned offset below 0x400. -/
def windowReg (off : Nat) : WindowReg :=
  if off = 0x000 then .cmd
  else if off = 0x008 then .din
  else if off = 0x010 then .dout
  else if off = 0x018 then .status
  else if 0x100 ≤ off ∧ off < 0x1C8 then .lane ((off - 0x100) / 8)
  else if 0x200 ≤ off ∧ off < 0x240 then .out ((off - 0x200) / 8)
  else .reserved

/-- What R51 refuses: a width other than 64 bits, an address outside the window, an offset that is no multiple of 8. -/
def accessRefusal (width : Nat) (off : Word) : Option Refusal :=
  if width ≠ 8 then some .accessWidth
  else if Config.windowBytes ≤ off.toNat then some .accessOutsideWindow
  else if off.toNat % 8 ≠ 0 then some .accessAlignment
  else none

/-- The offset an access carries for a host address: the address minus IDN45_BASE, modulo 2^64 (log entry 3). -/
def offsetOf (addr : Word) : Word := addr - Config.idn45Base

/-- `OUT[k]`: `LE64(OUTSTR[8k], …, OUTSTR[8k+7])` (R54). -/
def outWord (s : State) (k : Nat) : Word := packLE ((s.outstr.toList.drop (8 * k)).take 8)

/-- What a read of a register returns where R50 to R55 state it; STATUS shows BUSY (R32, R57). -/
def readReg (s : State) : WindowReg → Word
  | .cmd => 0
  | .din => s.din
  | .dout => s.dout
  | .status => statusWord s
  | .lane i => laneAt s.lanes i
  | .out k => outWord s k
  | .reserved => 0

/-- The registers whose value is unspecified while BUSY = 1 (R57). -/
def unspecifiedWhileBusy : WindowReg → Bool
  | .cmd => false
  | .din => false
  | .dout => true
  | .status => false
  | .lane _ => true
  | .out _ => true
  | .reserved => false

/-- `MemRead` (R53 to R57): no effect on the engine; the value goes to the host. An unspecified value is the next draw
of the free value Config.busyRead (log entry 4). -/
def hostRead (r : WindowReg) (s : State) : State :=
  if s.busy = true ∧ unspecifiedWhileBusy r = true then
    { s with rdata := Config.busyRead s.busyReads, busyReads := s.busyReads + 1 }
  else { s with rdata := readReg s r }

/-- `Outcome(w)` of R223: the effect of cases 2 to 5 of R200. -/
def outcome (w : Word) (s : State) : Result :=
  match decode w with
  | .error _ => .next (rejectCommand s)
  | .ok i => exec i s

/-- An accepted CMD write (R223) whose latency draw is `latency`: at 0 the outcome is applied at once; else the command
is in progress for that many host accesses. -/
def issueCommand (w : Word) (latency : Nat) (s : State) : Result :=
  if latency = 0 then outcome w s else .next { s with pending := some ⟨w, latency⟩ }

/-- `MemWrite` (R55): CMD and DIN, both discarded with VIOL <- 1 while BUSY = 1 (R200 case 1, R205); a write to any other
register is ignored. -/
def hostWrite (r : WindowReg) (v : Word) (latency : Nat) (s : State) : Result :=
  match r with
  | .cmd => if s.busy then .next { s with viol := true } else issueCommand v latency s
  | .din => if s.busy then .next { s with viol := true } else .next { s with din := v }
  | .dout => .next s
  | .status => .next s
  | .lane _ => .next s
  | .out _ => .next s
  | .reserved => .next s

/-- The VIOL check of R205, after the effects of the command that was in progress; then BUSY <- 0. -/
def settleViol (s : State) : State :=
  if s.viol = true ∧ s.phase ≠ .faulted then raiseFault .busywr { s with viol := false, pending := none }
  else { s with viol := false, pending := none }

/-- The completion of the command in progress (R205, R223): its outcome, computed from the state it was issued in, since
nothing but a reset changes a register it reads before then (DEDUCED, log entry 6). -/
def completeCommand (w : Word) (s : State) : Result :=
  match outcome w s with
  | .next t => .next (settleViol t)
  | .fault r => .fault r
  | .refused r => .refused r

/-- One host access seen while BUSY = 1 has been made (R223): the command completes after the n-th of them. -/
def countAccess (s : State) : Result :=
  match s.pending with
  | none => .next s
  | some p =>
    if p.left ≤ 1 then completeCommand p.cmd s else .next { s with pending := some { p with left := p.left - 1 } }

/-- One event of the host's (R55, R57, R220, R223). A command's own CMD write is not among the accesses its latency
counts. -/
def hostEvent (e : HostEvent) (s : State) : Result :=
  match e with
  | .reset => .next (resetEngine s)
  | .read width off =>
    match accessRefusal width off with
    | some r => .refused r
    | none => countAccess (hostRead (windowReg off.toNat) s)
  | .write width off v latency =>
    match accessRefusal width off with
    | some r => .refused r
    | none =>
      if s.busy then
        match hostWrite (windowReg off.toNat) v latency s with
        | .next t => countAccess t
        | .fault r => .fault r
        | .refused r => .refused r
      else hostWrite (windowReg off.toNat) v latency s

end Sys2Proof.Machine
end

