-- ==== Sys2Proof/Machine/Step.lean ====
section
/-! DEFINITION. Sys2Proof/Machine/Step.lean: one step: the host's next event, or, where the host does nothing, no change
(R214). The host's writes to CMD are the program (R36, R61). -/

namespace Sys2Proof.Machine

def step (s : State) : Host.Outcome State Fault Refusal :=
  match s.host with
  | [] => .next s
  | e :: rest => hostEvent e { s with host := rest }

/-- `s` with a write of the command value `w` to CMD as the host's next event, drawn latency 0 (log entry 2), and no
command in progress, so that the next step runs it. This stands for the host: the engine fetches nothing (R61). -/
def State.withFetchWord (s : State) (nbits w : Nat) : State :=
  { s with
    pending := none
    host := .write 8 0 (BitVec.ofNat 64 (w % 2 ^ nbits)) 0 :: s.host }

end Sys2Proof.Machine
end

