-- ==== Sys2Proof/Machine/HostSeq.lean ====
section
/-! DEFINITION. Sys2Proof/Machine/HostSeq.lean: the host's side (44_host_sequences.md): the assembler lines of R77, the
pseudo-instructions of R180 to R186 and the end of a run (R189). Host software, not hardware (R4, D18): State holds none
of it, and `step` uses none of it. Log entry 14. -/

namespace Sys2Proof.Machine

/-- The registers an RD line can name (R77). R77 gives no RD line of any other offset, so this type has none; an access
at another offset is a HostEvent, which `step` treats by R51. Log entry 14. -/
inductive ReadReg where
  | din
  | dout
  | status
  | lane (i : Fin 25)
  | out (k : Fin 8)
  deriving DecidableEq, Repr

/-- The offset of a readable register in the window (R50). -/
def ReadReg.offset : ReadReg → Nat
  | .din => 0x008
  | .dout => 0x010
  | .status => 0x018
  | .lane i => 0x100 + 8 * i.val
  | .out k => 0x200 + 8 * k.val

/-- One line of a host program (R77). The POLL after a command line is part of `cmd`; a POLL line of its own reads STATUS
once at the command level, where BUSY is 0, so it is `rd .status`. -/
inductive HostLine where
  | cmd (i : Instr)
  | wrDin (v : Word)
  | rd (r : ReadReg)
  deriving DecidableEq, Repr

/-- The accesses a line makes where its command draws the latency n: the write, then POLL, which reads STATUS until it
sees BUSY = 0, so n + 1 times (R77, R223). -/
def HostLine.events (latency : Nat) : HostLine → List HostEvent
  | .cmd i => .write 8 0x000 (encode i) latency :: List.replicate (latency + 1) (.read 8 0x018)
  | .wrDin v => [.write 8 0x008 v 0]
  | .rd r => [.read 8 (BitVec.ofNat 64 r.offset)]

/-- n steps, ending early at a stop. -/
def stepN : Nat → State → Result
  | 0, s => .next s
  | n + 1, s =>
    match step s with
    | .next t => stepN n t
    | .fault r => .fault r
    | .refused r => .refused r

/-- A line at the command level (R5): the command's effect at once, a DIN write, or a read. -/
def HostLine.effect : HostLine → State → Result
  | .cmd i, s => exec i s
  | .wrDin v, s => .next { s with din := v }
  | .rd r, s => .next (hostRead (windowReg r.offset) s)

/-- What R189 looks at in a run: the commands it issues and the STATUS values it reads. -/
inductive Seen where
  | issued (i : Instr)
  | status (w : Word)
  deriving DecidableEq, Repr

/-- What a line adds to the run, where it leaves the state `t`. At the command level POLL is one STATUS read after the
command (R77, R223; log entry 14), and RD STATUS is one. -/
def HostLine.seen : HostLine → State → List Seen
  | .cmd i, t => [.issued i, .status (statusWord t)]
  | .wrDin _, _ => []
  | .rd .status, t => [.status t.rdata]
  | .rd .din, _ => []
  | .rd .dout, _ => []
  | .rd (.lane _), _ => []
  | .rd (.out _), _ => []

/-- The value an RD line gives the host. -/
def HostLine.values : HostLine → State → List Word
  | .cmd _, _ => []
  | .wrDin _, _ => []
  | .rd _, t => [t.rdata]

/-- What a host program did and left: its commands and every STATUS value it read, POLL's among them; the values of its RD
lines; and the last state. Both lists are oldest first. -/
structure Run where
  seen   : List Seen
  values : List Word
  final  : State
  deriving DecidableEq, Repr

/-- A run and the run that goes on from its last state. -/
def Run.append (r q : Run) : Run := ⟨r.seen ++ q.seen, r.values ++ q.values, q.final⟩

/-- The outcome of a host program: a result, or the stop of one of its steps. -/
abbrev HostResult (α : Type) := Host.Outcome α Fault Refusal

/-- Go on with `f` where the outcome is a result. -/
def andThen {α β : Type} (o : HostResult α) (f : α → HostResult β) : HostResult β :=
  match o with
  | .next x => f x
  | .fault r => .fault r
  | .refused r => .refused r

/-- A host program at the command level. -/
def runLines : List HostLine → State → HostResult Run
  | [], s => .next ⟨[], [], s⟩
  | line :: rest, s =>
    andThen (line.effect s) fun t =>
      andThen (runLines rest t) fun r => .next (Run.append ⟨line.seen t, line.values t, t⟩ r)

/-! ### The end of a run (R189, D42) -/

/-- A STATUS value with BUSY = 0 and PHASE = DONE: the hash computation has ended (R189). -/
def statusEnded (w : Word) : Bool := !w.getLsbD 2 && decide (w.extractLsb' 0 2 = Phase.done.code)

/-- A STATUS value with PHASE = FAULTED, whatever its BUSY: the run has failed (R189). -/
def statusFailed (w : Word) : Bool := decide (w.extractLsb' 0 2 = Phase.faulted.code)

/-- The command DIGEST, which alone leads to DONE (R130). -/
def isDigest : Instr → Bool
  | .digest _ => true
  | .nop => false
  | .init => false
  | .absorb _ => false
  | .finalize => false
  | .sqbegin => false
  | .squeeze _ => false
  | .permute => false
  | .ldlane _ => false

/-- The STATUS read that shows the end of a hash computation. -/
def Seen.showsEnd : Seen → Bool
  | .issued _ => false
  | .status w => statusEnded w

/-- The run issued DIGEST and afterwards read BUSY = 0 and PHASE = DONE. A run that never issues DIGEST has no end as a hash
computation (R189), whatever STATUS showed before it. -/
def digestEnded : List Seen → Bool
  | [] => false
  | .issued i :: rest => (isDigest i && rest.any Seen.showsEnd) || digestEnded rest
  | .status _ :: rest => digestEnded rest

/-- ERR of the first STATUS value with PHASE = FAULTED. -/
def failureOf : List Seen → Option (BitVec 4)
  | [] => none
  | .issued _ :: rest => failureOf rest
  | .status w :: rest => if statusFailed w then some (w.extractLsb' 4 4) else failureOf rest

/-- What a run has come to, as a hash computation. -/
inductive Verdict where
  | unfinished                -- neither
  | ended                     -- after a DIGEST, BUSY = 0 and PHASE = DONE
  | failed (err : BitVec 4)   -- PHASE = FAULTED; ERR names the reason
  deriving DecidableEq, Repr

/-- The verdict on a run (R189, D42). A run that reads PHASE = FAULTED has failed, whatever else it reads; log entry 14. -/
def verdict (run : List Seen) : Verdict :=
  match failureOf run with
  | some err => .failed err
  | none => if digestEnded run then .ended else .unfinished

/-- The observation of a hash run whose READ_OUT returned `str`: the string where the run has ended, none where it has
failed or not ended (R189). -/
def Run.hashObservation (r : Run) (str : List Byte) : Option (List Byte) :=
  match verdict r.seen with
  | .ended => some str
  | .failed _ => none
  | .unfinished => none

/-- The observation of a sponge-level run that returned `bytes` from DOUT: the bytes, none where the run has failed
(R189). Its end is that of its last SQUEEZE, not a verdict. -/
def Run.squeezeObservation (r : Run) (bytes : List Byte) : Option (List Byte) :=
  match failureOf r.seen with
  | some _ => none
  | none => some bytes

/-! ### The pseudo-instructions (R180 to R186) -/

/-- The lines of one chunk of ABSORB_BYTES: `WR DIN` and `ABSORB len(c)` (R181). -/
def absorbChunk (c : List Byte) : List HostLine := [.wrDin (packLE c), .cmd (.absorb c.length)]

/-- ABSORB_BYTES(m): chunks of up to 8 bytes at offsets 0, 8, 16, … (R181). -/
def absorbLines (m : List Byte) : List HostLine :=
  (List.range ((m.length + 7) / 8)).flatMap fun k => absorbChunk ((m.drop (8 * k)).take 8)

/-- UPDATE(m) (R182). -/
def updateLines (m : List Byte) : List HostLine := absorbLines m

/-- HASH_NEW(data?, salt?): the salt first, then the data (R180). -/
def hashNewLines (data salt : Option (List Byte)) : List HostLine :=
  .cmd .init :: (absorbLines (salt.getD []) ++ absorbLines (data.getD []))

/-- The byte of a little-endian string of words at index c (R54, R185). -/
def bytesOfWords (ws : List Word) : List Byte := ws.flatMap fun w => (List.range 8).map (byteOf w)

/-- The lines of SQUEEZE_CALL(n) (R184): nothing for n = 0. -/
def squeezeCallLines (n : Nat) : List HostLine :=
  if n = 0 then []
  else .cmd .sqbegin ::
    (List.range ((n + 7) / 8)).flatMap fun k => [.cmd (.squeeze (min 8 (n - 8 * k))), .rd .dout]

/-- SQUEEZE_CALL(n) (R184, R189): the bytes returned, none where the run failed, and the run. -/
def squeezeCall (n : Nat) (s : State) : HostResult (Option (List Byte) × Run) :=
  andThen (runLines (squeezeCallLines n) s) fun r =>
    .next (r.squeezeObservation ((bytesOfWords r.values).take n), r)

/-- The OUT reads of READ_OUT for a string of `len` characters (R185). There are eight OUT registers, so at most eight
reads; OUTLEN is at most 64 (R31). -/
def readOutLines (len : Nat) : List HostLine :=
  ((List.finRange 8).take ((len + 7) / 8)).map fun k => .rd (.out k)

/-- READ_OUT (R185): OUTLEN from STATUS[30:24], then the string from the OUT window. -/
def readOut (s : State) : HostResult (List Byte × Run) :=
  andThen (runLines [.rd .status] s) fun r =>
    let len := ((r.values.headD 0).extractLsb' 24 7).toNat
    andThen (runLines (readOutLines len) r.final) fun q => .next ((bytesOfWords q.values).take len, r.append q)

/-- Lines, then HEXDIGEST(fmt): `DIGEST fmt`, then READ_OUT (R183). The string is observed only where the whole run has
ended and not failed (R189). -/
def hexdigestAfter (lines : List HostLine) (fmt : Format) (s : State) : HostResult (Option (List Byte) × Run) :=
  andThen (runLines (lines ++ [.cmd (.digest fmt)]) s) fun r =>
    andThen (readOut r.final) fun out => .next ((r.append out.2).hashObservation out.1, r.append out.2)

/-- HEXDIGEST(fmt) (R183). -/
def hexdigest (fmt : Format) (s : State) : HostResult (Option (List Byte) × Run) := hexdigestAfter [] fmt s

/-- HASH(data, salt, fmt): HASH_NEW, then HEXDIGEST (R186). -/
def hashRun (data salt : Option (List Byte)) (fmt : Format) (s : State) : HostResult (Option (List Byte) × Run) :=
  hexdigestAfter (hashNewLines data salt) fmt s

/-- The string of HASH on a fresh session (R186); none where the run has no observation, which no run does. -/
def hashString (data salt : Option (List Byte)) (fmt : Format) : Option (List Byte) :=
  match hashRun data salt fmt State.reset with
  | .next (str, _) => str
  | .fault _ => none
  | .refused _ => none

/-- The format VALIDATE detects, from length and shape alone (R186). -/
def detectFormat (cand : List Byte) : Option Format :=
  if cand.length = 32 ∧ cand.take 6 = uuidPrefix then some .uuid
  else if cand.length = 12 ∧ charColon ∈ cand then some .short
  else if cand.length = 64 then some .standard
  else none

/-- VALIDATE(data, cand, salt?) (R186). -/
def validate (data : List Byte) (cand : List Byte) (salt : Option (List Byte)) : Bool :=
  match detectFormat cand with
  | some fmt => decide (hashString (some data) salt fmt = some cand)
  | none => false

end Sys2Proof.Machine
end

