-- ==== Sys2Proof/Safety.lean ====
section
/-! DEFINITION. Sys2Proof/Safety.lean: the invariant of every run (R24 to R34, R142), and the second definitions that
statements compare the machine with: the illegal values of R75 written on the bits, the transition table of R130, the
LFSR of R111, the output stream of R141 and the closed form of R187. -/

namespace Sys2Proof.Machine

/-- The ranges of the counters (R24, R27, R31, R142). -/
abbrev State.InRange (s : State) : Prop :=
  s.buf.length ≤ 135 ∧ s.sqpos ≤ 136 ∧ (s.outlen = 0 ∨ s.outlen = 12 ∨ s.outlen = 32 ∨ s.outlen = 64)

/-- OUTSTR[OUTLEN..64) is zero (R31). -/
abbrev State.StringPadded (s : State) : Prop := ∀ c < 64, s.outlen ≤ c → s.outstr.toList.getD c 0 = 0

/-- FIN against PHASE (R26), ERR against PHASE (R28, R201). -/
abbrev State.FlagsAgree (s : State) : Prop :=
  (s.phase = .absorbing → s.fin = false) ∧ (s.phase = .squeezing → s.fin = true) ∧
  (s.phase = .done → s.fin = true) ∧ (s.err = .none ↔ s.phase ≠ .faulted)

/-- Before the finalize step no output register has been written; after it the buffer is empty (R30, R31, R136, R142). -/
abbrev State.SessionAgrees (s : State) : Prop :=
  (s.fin = false → s.sqpos = 0 ∧ s.dout = 0 ∧ s.outlen = 0) ∧ (s.fin = true → s.buf = []) ∧
  (s.phase = .squeezing → s.outlen = 0) ∧ (s.phase = .done → s.outlen ≠ 0)

/-- VIOL is 0 whenever no command is in progress, and a command in progress has host accesses left (R34, R223). -/
abbrev State.BusyAgrees (s : State) : Prop :=
  (s.viol = true → s.busy = true) ∧ ∀ p ∈ s.pending, 1 ≤ p.left

/-- The invariant of every run from reset. -/
abbrev State.Inv (s : State) : Prop :=
  s.InRange ∧ s.StringPadded ∧ s.FlagsAgree ∧ s.SessionAgrees ∧ s.BusyAgrees

/-- The illegal command values, on the bits of w: R75 (a) to (g). -/
def illegalValue (w : Word) : Prop :=
  let opc := (w.toNat / 2 ^ 24) % 2 ^ 8
  let arg := w.toNat % 2 ^ 8
  w.toNat / 2 ^ 32 ≠ 0 ∨ (w.toNat / 2 ^ 8) % 2 ^ 16 ≠ 0 ∨ 0x09 ≤ opc ∨
  ((opc = 0x02 ∨ opc = 0x05) ∧ (arg < 1 ∨ 8 < arg)) ∨ (opc = 0x06 ∧ 2 < arg) ∨ (opc = 0x08 ∧ 24 < arg) ∨
  ((opc = 0x00 ∨ opc = 0x01 ∨ opc = 0x03 ∨ opc = 0x04 ∨ opc = 0x07) ∧ arg ≠ 0)

/-- The phase after a legal command: the table of R130. F(C) leaves FAULTED; an ignored command leaves FAULTED. -/
def phaseAfter : Instr → Phase → Phase
  | .nop, p => p
  | .init, _ => .absorbing
  | .absorb _, .absorbing => .absorbing
  | .absorb _, _ => .faulted
  | .finalize, .absorbing => .squeezing
  | .finalize, .squeezing => .squeezing
  | .finalize, _ => .faulted
  | .sqbegin, .squeezing => .squeezing
  | .sqbegin, _ => .faulted
  | .squeeze _, .squeezing => .squeezing
  | .squeeze _, _ => .faulted
  | .digest _, .absorbing => .done
  | .digest _, .squeezing => .done
  | .digest _, _ => .faulted
  | .permute, .absorbing => .absorbing
  | .permute, .squeezing => .squeezing
  | .permute, _ => .faulted
  | .ldlane _, .absorbing => .absorbing
  | .ldlane _, .squeezing => .squeezing
  | .ldlane _, _ => .faulted

/-- An illegal command value raises Fault(ILLEGAL), and in FAULTED it is ignored (R75, R204, R206). -/
abbrev RejectsValue (w : Word) : Prop :=
  ∀ s : State, outcome w s = .next (if s.phase = .faulted then s else { s with err := .illegal, phase := .faulted })

/-- A command without operand has one encoding, the value `w0`; every other value with its opcode is illegal (R75). -/
abbrev BareEncoding (i : Instr) (w0 : Word) : Prop :=
  decode w0 = .ok i ∧ ∀ w, fieldOpc w = fieldOpc w0 → w ≠ w0 → RejectsValue w

/-- A command with a count or index: ARG in lo..hi is the operand, every other ARG is illegal (R72, R75). -/
abbrev ArgEncoding (mk : Nat → Instr) (w0 : Word) (lo hi : Nat) : Prop :=
  ∀ a : BitVec 8, (lo ≤ a.toNat ∧ a.toNat ≤ hi → decode (w0 ||| a.setWidth 64) = .ok (mk a.toNat)) ∧
    (¬ (lo ≤ a.toNat ∧ a.toNat ≤ hi) → RejectsValue (w0 ||| a.setWidth 64))

/-- An access the window accepts (R51): not a reset, not one that is refused. -/
def HostEvent.accepted : HostEvent → Bool
  | .read width off => decide (accessRefusal width off = none)
  | .write width off _ _ => decide (accessRefusal width off = none)
  | .reset => false

/-- A write to CMD or DIN: the access that violates the handshake while BUSY = 1 (R205). -/
def HostEvent.writesCmdOrDin : HostEvent → Bool
  | .read _ _ => false
  | .write _ off _ _ => decide (off = 0x000 ∨ off = 0x008)
  | .reset => false

/-- What one accepted access does while BUSY = 1, before the command completes (R57, R205), with the access taken off the
host's list: a read returns STATUS, DIN, 0 (CMD and reserved offsets, log entry 11) or the next draw of the free value
(DOUT, LANE, OUT), and a write to CMD or DIN sets VIOL. -/
def afterBusyAccess (e : HostEvent) (rest : List HostEvent) (s : State) : State :=
  match e with
  | .read _ off =>
    if off = 0x008 then { s with host := rest, rdata := s.din }
    else if off = 0x018 then { s with host := rest, rdata := statusWord s }
    else if off = 0x010 ∨ (0x100 ≤ off.toNat ∧ off.toNat < 0x1C8) ∨ (0x200 ≤ off.toNat ∧ off.toNat < 0x240) then
      { s with host := rest, rdata := Config.busyRead s.busyReads, busyReads := s.busyReads + 1 }
    else { s with host := rest, rdata := 0 }
  | .write _ off _ _ => { s with host := rest, viol := if off = 0x000 ∨ off = 0x008 then true else s.viol }
  | .reset => s

/-- One step of the LFSR of R111, polynomial x^8 + x^6 + x^5 + x^4 + 1, on an 8-bit state. -/
def lfsrStep (v : Nat) : Nat := if v * 2 < 256 then v * 2 else (v * 2) ^^^ 0x171

/-- `rc(t)` of R111: the output bit after t steps from state 1. -/
def lfsrBit (t : Nat) : Bool := (Nat.repeat lfsrStep t 1) % 2 = 1

/-- RC[r] by the LFSR definition of R111: bit 2^j − 1 is rc(j + 7r) for j = 0..6, every other bit 0. -/
def lfsrConstant (r : Nat) : Word :=
  (List.range 7).foldl (fun v j => if lfsrBit (j + 7 * r) then v ||| (1#64 <<< (2 ^ j - 1)) else v) 0

/-- `Perm` applied k times. -/
def permTimes (k : Nat) (l : Lanes) : Lanes := Nat.repeat perm k l

/-- The first `136 * blocks` bytes of `R(S0) ++ R(Perm(S0)) ++ …` (R141). -/
def outputStream (blocks : Nat) (l : Lanes) : List Byte :=
  (List.range blocks).flatMap fun k => rateBytes (permTimes k l)

/-- The lane store after the full 136-byte blocks of M, from all zero (R187). -/
def absorbFullBlocks (m : List Byte) : Lanes :=
  (List.range (m.length / 136)).foldl (fun l k => absorbBlock ((m.drop (136 * k)).take 136) l)
    (Vector.replicate 25 0)

/-- Z of R187: the full blocks, then the padded rest. -/
def finalLanes (m : List Byte) : Lanes :=
  absorbBlock (padBlock (m.drop (136 * (m.length / 136)))) (absorbFullBlocks m)

/-- The closed form of R187, of M = salt ++ data. -/
def closedHash (m : List Byte) (fmt : Format) : List Byte :=
  formatString fmt (hexEncode ((rateBytes (finalLanes m)).take (digestLen fmt)))

end Sys2Proof.Machine
end

