-- ==== Sys2Proof/Certificates/Slice0/Obligations.lean ====
section
/-! DEFINITION. Sys2Proof/Certificates/Slice0/Obligations.lean: the statements for the provers, in the order of the
spec's files. Each docstring names the rules it comes from. -/

open Sys2Proof Sys2Proof.Machine

/-! ### Notation and encoding (R9, R70 to R76) -/

/-- R9: bit i moves to bit (i + n) mod 64; the shift form; an amount of 0; amounts are taken mod 64. -/
def Obligations.RotationMovesBits : Prop :=
  ∀ (v : Word) (n : Nat),
    (∀ i < 64, (rotl v n).getLsbD ((i + n) % 64) = v.getLsbD i) ∧
    (1 ≤ n → n ≤ 63 → rotl v n = (v <<< n) ||| (v >>> (64 - n))) ∧
    rotl v 0 = v ∧ rotl v n = rotl v (n % 64)

/-- R70 to R74: decoding what the encoder writes gives the command back, every operand at every legal value. -/
def Obligations.DecodeOfEncode : Prop :=
  ∀ i : Instr, i.wellFormed = true → decode (encode i) = .ok i

/-- R74, R75: a value that decodes is the encoding of the well-formed command it decodes to, so each command has one
value and no bit of a value is dropped. -/
def Obligations.EncodeOfDecode : Prop :=
  ∀ (w : Word) (i : Instr), decode w = .ok i → i.wellFormed = true ∧ encode i = w

/-- R75, R204: the decoder rejects exactly the illegal values (a) to (g); an illegal value raises Fault(ILLEGAL), and in
FAULTED it is ignored. -/
def Obligations.IllegalValuesFault : Prop :=
  ∀ w : Word, ((∃ e, decode w = .error e) ↔ illegalValue w) ∧ (illegalValue w → RejectsValue w)

/-- R74: one value of each row, written from the opcode map. -/
def Obligations.DecodedWordsOfTheTable : Prop :=
  decode 0x0000000000000000 = .ok .nop ∧ decode 0x0000000001000000 = .ok .init ∧
  decode 0x0000000002000003 = .ok (.absorb 3) ∧ decode 0x0000000003000000 = .ok .finalize ∧
  decode 0x0000000004000000 = .ok .sqbegin ∧ decode 0x0000000005000008 = .ok (.squeeze 8) ∧
  decode 0x0000000006000001 = .ok (.digest .uuid) ∧ decode 0x0000000007000000 = .ok .permute ∧
  decode 0x0000000008000018 = .ok (.ldlane 24)

/-! ### The permutation (R100 to R113) -/

/-- R102, R103, R104: theta XORs C[x-1] and C[x+1] rotated by 1 into every lane of column x, all C taken from the
round's input; the worked step, which R104 marks as its own inference from R102 and R103. -/
def Obligations.ThetaMixesColumnParities : Prop :=
  (∀ (a : Lanes) (x y : Nat), x < 5 → y < 5 →
    let c : Nat → Word := fun x => matAt a x 0 ^^^ matAt a x 1 ^^^ matAt a x 2 ^^^ matAt a x 3 ^^^ matAt a x 4
    matAt (theta a) x y = matAt a x y ^^^ (c ((x + 4) % 5) ^^^ rotl (c ((x + 1) % 5)) 1)) ∧
  ∀ x < 5, ∀ y < 5, matAt (theta (setLane (Vector.replicate 25 0) 0 1)) x y =
    if x = 0 ∧ y = 0 then 1 else if x = 1 then 1 else if x = 4 then 2 else 0

/-- R105, R106, R107: the lane at (x, y) arrives at (y, (2x+3y) mod 5), rotated by ROT(x, y, r); the move is a bijection of
the 25 positions, which R107 marks as its own inference from its table. -/
def Obligations.RhoPiMovesAndRotates : Prop :=
  (∀ (e : Lanes) (r x y : Nat), x < 5 → y < 5 →
    matAt (rhoPi r e) y ((2 * x + 3 * y) % 5) =
      rotl (matAt e x y) (((11 * x + 23 * y) % 64 + (r + 1) * (r + 2) / 2 % 64) % 64)) ∧
  ∀ p q : Nat, p < 5 → q < 5 → ∃ x y : Nat, x < 5 ∧ y < 5 ∧ y = p ∧ (2 * x + 3 * y) % 5 = q ∧
    ∀ x' y' : Nat, x' < 5 → y' < 5 → y' = p → (2 * x' + 3 * y') % 5 = q → x' = x ∧ y' = y

/-- R105, R106: the amount is in 0..63, and is 0 and 63 exactly where R106 lists it; rounds 0 and 9 to 11 of the
triangular term. -/
def Obligations.RotationAmountsOfTheSchedule : Prop :=
  (∀ x y r : Nat, rotAmount x y r ≤ 63) ∧
  (∀ x < 5, ∀ y < 5, ∀ r < 24, rotAmount x y r = 0 ↔ (x, y, r) ∈
    [(3, 4, 1), (4, 3, 4), (0, 4, 7), (2, 4, 11), (0, 1, 13), (4, 4, 14), (3, 1, 15), (1, 4, 16), (0, 2, 19),
      (4, 1, 21), (4, 0, 22)]) ∧
  (∀ x < 5, ∀ y < 5, ∀ r < 24, rotAmount x y r = 63 ↔ (x, y, r) ∈
    [(1, 2, 2), (2, 3, 7), (4, 4, 9), (3, 4, 10), (4, 3, 11), (2, 0, 13), (3, 3, 16), (2, 1, 19)]) ∧
  triangular 0 = 1 ∧ triangular 9 = 55 ∧ triangular 10 = 2 ∧ triangular 11 = 14 ∧ triangular 23 = 44

/-- R108: chi, every lane of a row from the row before it; rows of all zeros and all ones stay, which R108 marks as its own
inference. -/
def Obligations.ChiReadsTheSnapshot : Prop :=
  ∀ (b : Lanes) (y : Nat), y < 5 →
    (∀ x < 5, matAt (chi b) x y =
      matAt b x y ^^^ (~~~ matAt b ((x + 1) % 5) y &&& matAt b ((x + 2) % 5) y)) ∧
    ((∀ x < 5, matAt b x y = 0) → ∀ x < 5, matAt (chi b) x y = 0) ∧
    ((∀ x < 5, matAt b x y = BitVec.allOnes 64) → ∀ x < 5, matAt (chi b) x y = BitVec.allOnes 64)

/-- R110: iota XORs RC[r] into lane (0, 0) and changes no other lane. -/
def Obligations.IotaTouchesOneLane : Prop :=
  ∀ (f : Lanes) (r i : Nat), i < 25 →
    laneAt (iota r f) i = if i = 0 then laneAt f 0 ^^^ roundConstant r else laneAt f i

/-- R111: the table of round constants is the LFSR's (the spec supplies both from general knowledge; log entry 12). -/
def Obligations.RoundConstantsFollowTheLfsr : Prop :=
  ∀ r < 24, roundConstant r = lfsrConstant r

/-- R100, R101: Perm is 24 rounds, r = 0 to 23 in that order, each theta, then rho and pi with r, then chi, then iota with
the same r (the base 0 of r is the spec's choice D7 from general knowledge, log entry 12). R113: PERMUTE rewrites the lane
store by Perm and nothing else, in ABSORBING and SQUEEZING; CONTRACT in DONE, ignored in FAULTED. -/
def Obligations.PermuteAppliesPerm : Prop :=
  (∀ l : Lanes, ∃ round : Nat → Lanes, round 0 = l ∧ perm l = round 24 ∧
    ∀ r < 24, round (r + 1) = iota r (chi (rhoPi r (theta (round r))))) ∧
  BareEncoding .permute 0x0000000007000000 ∧ ∀ s : State,
    (s.phase = .absorbing ∨ s.phase = .squeezing → exec .permute s = .next { s with lanes := perm s.lanes }) ∧
    (s.phase = .done → exec .permute s = .next { s with err := .contract, phase := .faulted }) ∧
    (s.phase = .faulted → exec .permute s = .next s)

/-! ### The lane store (R21, R56, R121 to R123) -/

/-- R21, R56: a lane is its eight state bytes, the lower index in the less significant bits. -/
def Obligations.LanesAreLittleEndianBytes : Prop :=
  ∀ (l : Lanes) (i : Nat), i < 25 →
    laneAt l i = packLE ((List.range 8).map fun k => stByte l (8 * i + k)) ∧
    ∀ k < 8, stByte l (8 * i + k) = (laneAt l i).extractLsb' (8 * k) 8

/-- R121: XorBlock is the byte-wise XOR of the block into bytes 0..135; that it leaves the capacity bytes, undoes itself and
does nothing with a zero block is what R121 marks as its own inference. -/
def Obligations.XorBlockIsBytewise : Prop :=
  ∀ (blk : List Byte) (l : Lanes), blk.length = 136 →
    (∀ j < 136, stByte (xorBlock blk l) j = stByte l j ^^^ blk.getD j 0) ∧
    (∀ j, 136 ≤ j → j < 200 → stByte (xorBlock blk l) j = stByte l j) ∧
    xorBlock blk (xorBlock blk l) = l ∧ xorBlock (List.replicate 136 0) l = l

/-- R122: LDLANE writes DIN to one lane, a capacity lane too, and nothing else; CONTRACT in DONE, ignored in FAULTED. -/
def Obligations.LdlaneWritesOneLane : Prop :=
  ArgEncoding .ldlane 0x0000000008000000 0 24 ∧ ∀ (s : State) (idx : Nat), idx ≤ 24 →
    (s.phase = .absorbing ∨ s.phase = .squeezing →
      ∃ l : Lanes, exec (.ldlane idx) s = .next { s with lanes := l } ∧
        ∀ i < 25, laneAt l i = if i = idx then s.din else laneAt s.lanes i) ∧
    (s.phase = .done → exec (.ldlane idx) s = .next { s with err := .contract, phase := .faulted }) ∧
    (s.phase = .faulted → exec (.ldlane idx) s = .next s)

/-- R123: NOP changes nothing in any phase. -/
def Obligations.NopChangesNothing : Prop :=
  BareEncoding .nop 0x0000000000000000 ∧ ∀ s : State, exec .nop s = .next s

/-! ### The sponge (R130 to R142) -/

/-- R131: INIT, in every phase. DIN is unchanged. No other command value leaves FAULTED. That a session starts from zero
lanes is the spec's choice D8 from general knowledge (K4, log entry 12). -/
def Obligations.InitStartsASession : Prop :=
  BareEncoding .init 0x0000000001000000 ∧
  (∀ s : State, exec .init s = .next { s with
    lanes := Vector.replicate 25 0, buf := [], phase := .absorbing, fin := false, err := .none, sqpos := 0,
    dout := 0, outstr := Vector.replicate 64 0, outlen := 0 }) ∧
  ∀ (w : Word) (s : State), w ≠ 0x0000000001000000 → s.phase = .faulted → outcome w s = .next s

/-- R132, R133: ABSORB N appends the N low bytes of DIN; where they complete a block, that block is XORed in and permuted
and the rest starts the next buffer; BUFCNT becomes (BUFCNT + N) mod 136. CONTRACT in SQUEEZING and DONE, ignored in
FAULTED. -/
def Obligations.AbsorbTakesTheLowBytes : Prop :=
  ArgEncoding .absorb 0x0000000002000000 1 8 ∧ ∀ (s : State) (n : Nat), 1 ≤ n → n ≤ 8 →
    let m := (List.range n).map fun k => s.din.extractLsb' (8 * k) 8
    (s.phase = .absorbing → s.buf.length + n < 136 →
      exec (.absorb n) s = .next { s with buf := s.buf ++ m }) ∧
    (s.phase = .absorbing → s.buf.length < 136 → 136 ≤ s.buf.length + n →
      exec (.absorb n) s = .next { s with
        lanes := perm (xorBlock ((s.buf ++ m).take 136) s.lanes), buf := (s.buf ++ m).drop 136 }) ∧
    (s.phase = .absorbing → s.buf.length < 136 →
      ∃ t, exec (.absorb n) s = .next t ∧ t.buf.length = (s.buf.length + n) % 136) ∧
    (s.phase = .squeezing ∨ s.phase = .done →
      exec (.absorb n) s = .next { s with err := .contract, phase := .faulted }) ∧
    (s.phase = .faulted → exec (.absorb n) s = .next s)

/-- R135, C3: the padded block has 136 bytes; with at most 134 bytes buffered 0x06 follows them; with 135 it is cut off. -/
def Obligations.PadBlockBytes : Prop :=
  ∀ buf : List Byte, buf.length ≤ 135 →
    (padBlock buf).length = 136 ∧
    (buf.length ≤ 134 → padBlock buf = buf ++ [0x06] ++ List.replicate (134 - buf.length) 0 ++ [0x80]) ∧
    (buf.length = 135 → padBlock buf = buf ++ [0x80])

/-- R136, R137: FINALIZE absorbs the padded block once and switches to SQUEEZING; in SQUEEZING it changes nothing;
CONTRACT in DONE, ignored in FAULTED. -/
def Obligations.FinalizePadsOnce : Prop :=
  BareEncoding .finalize 0x0000000003000000 ∧ ∀ s : State,
    (s.phase = .absorbing → s.buf.length < 136 → exec .finalize s = .next { s with
      lanes := perm (xorBlock (padBlock s.buf) s.lanes), buf := [], phase := .squeezing, fin := true, sqpos := 0 }) ∧
    (s.phase = .squeezing → s.buf.length < 136 → exec .finalize s = .next s) ∧
    (s.phase = .done → exec .finalize s = .next { s with err := .contract, phase := .faulted }) ∧
    (s.phase = .faulted → exec .finalize s = .next s)

/-- R139: SQBEGIN sets SQPOS to 0 and changes nothing else; CONTRACT in ABSORBING and DONE, ignored in FAULTED. -/
def Obligations.SqbeginRestartsTheCall : Prop :=
  BareEncoding .sqbegin 0x0000000004000000 ∧ ∀ s : State,
    (s.phase = .squeezing → exec .sqbegin s = .next { s with sqpos := 0 }) ∧
    (s.phase = .absorbing ∨ s.phase = .done →
      exec .sqbegin s = .next { s with err := .contract, phase := .faulted }) ∧
    (s.phase = .faulted → exec .sqbegin s = .next s)

/-- R138, R140: SQUEEZE N delivers the next N bytes, permuting lazily where the block is used up; CONTRACT in ABSORBING and
DONE, ignored in FAULTED. -/
def Obligations.SqueezeDeliversTheNextBytes : Prop :=
  ArgEncoding .squeeze 0x0000000005000000 1 8 ∧ ∀ (s : State) (n : Nat), 1 ≤ n → n ≤ 8 →
    (s.phase = .squeezing → s.sqpos + n ≤ 136 → exec (.squeeze n) s = .next { s with
      sqpos := s.sqpos + n
      dout := packLE ((List.range n).map fun k => stByte s.lanes (s.sqpos + k)) }) ∧
    (s.phase = .squeezing → s.sqpos ≤ 136 → 136 < s.sqpos + n → exec (.squeeze n) s = .next { s with
      lanes := perm s.lanes
      sqpos := s.sqpos + n - 136
      dout := packLE ((List.range (136 - s.sqpos)).map (fun k => stByte s.lanes (s.sqpos + k)) ++
        (List.range (s.sqpos + n - 136)).map (stByte (perm s.lanes))) }) ∧
    (s.phase = .absorbing ∨ s.phase = .done →
      exec (.squeeze n) s = .next { s with err := .contract, phase := .faulted }) ∧
    (s.phase = .faulted → exec (.squeeze n) s = .next s)

/-- R73, R140: byte k of DOUT is the k-th squeezed byte for k < N, and the bytes N..7 are zero. -/
def Obligations.DoutHoldsTheSqueezedBytes : Prop :=
  ∀ (s : State) (n : Nat), 1 ≤ n → n ≤ 8 → s.phase = .squeezing → s.sqpos ≤ 136 →
    ∃ t, exec (.squeeze n) s = .next t ∧
      (∀ k < n, t.dout.extractLsb' (8 * k) 8 =
        if s.sqpos + k < 136 then stByte s.lanes (s.sqpos + k) else stByte (perm s.lanes) (s.sqpos + k - 136)) ∧
      ∀ k, n ≤ k → k < 8 → t.dout.extractLsb' (8 * k) 8 = 0

/-! ### The formatter (R160 to R168) -/

/-- R160, R161: DIGEST finalizes if absorbing, formats the first bytes of the state's rate region, and consumes the
session; a session already finalized has FIN = 1 and an empty buffer. CONTRACT in DONE, ignored in FAULTED. -/
def Obligations.DigestFormatsTheFront : Prop :=
  decode 0x0000000006000000 = .ok (.digest .standard) ∧ decode 0x0000000006000001 = .ok (.digest .uuid) ∧
  decode 0x0000000006000002 = .ok (.digest .short) ∧
  (∀ a : BitVec 8, 3 ≤ a.toNat → RejectsValue (0x0000000006000000 ||| a.setWidth 64)) ∧
  digestLen .standard = 32 ∧ digestLen .uuid = 12 ∧ digestLen .short = 6 ∧
  ∀ (s : State) (fmt : Format),
    let str : Lanes → List Byte := fun l => formatString fmt (hexEncode ((rateBytes l).take (digestLen fmt)))
    (s.phase = .absorbing → s.buf.length < 136 →
      let l := perm (xorBlock (padBlock s.buf) s.lanes)
      exec (.digest fmt) s = .next { s with
        lanes := l, buf := [], fin := true, sqpos := digestLen fmt, outstr := outstrOf (str l),
        outlen := (str l).length, phase := .done }) ∧
    (s.phase = .squeezing → s.buf.length < 136 →
      exec (.digest fmt) s = .next { s with
        sqpos := digestLen fmt, outstr := outstrOf (str s.lanes), outlen := (str s.lanes).length, phase := .done }) ∧
    (s.phase = .squeezing → s.Inv → s.fin = true ∧ s.buf = []) ∧
    (s.phase = .done → exec (.digest fmt) s = .next { s with err := .contract, phase := .faulted }) ∧
    (s.phase = .faulted → exec (.digest fmt) s = .next s)

/-- R162, R167: two lowercase hex digits a byte, high nibble first. The digit order and the codes are the spec's general
knowledge (K5, K6; PRESUMED, log entry 12). -/
def Obligations.HexEncodeDigits : Prop :=
  ∀ raw : List Byte, (hexEncode raw).length = 2 * raw.length ∧
    ∀ k < raw.length,
      (hexEncode raw).getD (2 * k) 0 =
        [0x30, 0x31, 0x32, 0x33, 0x34, 0x35, 0x36, 0x37, 0x38, 0x39, 0x61, 0x62, 0x63, 0x64, 0x65, 0x66].getD
          ((raw.getD k 0) >>> 4).toNat 0 ∧
      (hexEncode raw).getD (2 * k + 1) 0 =
        [0x30, 0x31, 0x32, 0x33, 0x34, 0x35, 0x36, 0x37, 0x38, 0x39, 0x61, 0x62, 0x63, 0x64, 0x65, 0x66].getD
          ((raw.getD k 0) &&& 0x0F).toNat 0

/-- R164, R167: `IDN45-`, then three groups of 8 hex characters joined by dashes, 32 characters. The codes are the spec's
general knowledge (K6; PRESUMED, log entry 12). -/
def Obligations.UuidGroups : Prop :=
  ∀ raw : List Byte, raw.length = 12 →
    let h := hexEncode raw
    let str := formatString .uuid h
    str.length = 32 ∧ str.take 6 = [0x49, 0x44, 0x4E, 0x34, 0x35, 0x2D] ∧ (str.drop 6).take 8 = h.take 8 ∧
    str.getD 14 0 = 0x2D ∧ (str.drop 15).take 8 = (h.drop 8).take 8 ∧ str.getD 23 0 = 0x2D ∧
    str.drop 24 = h.drop 16

/-- R165, R167: with v the low nibble of raw[5], the colon stands at index (v mod 10) + 1, in 1..10, and the other characters
are the first 11 hex characters in order. The reading of the index (K7, D36) and the code (K6) are PRESUMED, log entry 12. -/
def Obligations.ShortColonPosition : Prop :=
  ∀ raw : List Byte, raw.length = 6 →
    let h := hexEncode raw
    let str := formatString .short h
    let p := (raw.getD 5 0 &&& 0x0F).toNat % 10 + 1
    1 ≤ p ∧ p ≤ 10 ∧ str.length = 12 ∧ str.getD p 0 = 0x3A ∧ str.take p ++ str.drop (p + 1) = h.take 11

/-- R163, R168: the three output shapes never coincide. -/
def Obligations.ShapesAreDisjoint : Prop :=
  ∀ (fmt : Format) (raw : List Byte), raw.length = digestLen fmt →
    let str := formatString fmt (hexEncode raw)
    (fmt = .standard → str = hexEncode raw ∧ str.length = 64 ∧ 0x3A ∉ str ∧ 0x2D ∉ str) ∧
    (fmt = .uuid → str.length = 32 ∧ str.take 6 = uuidPrefix ∧ 0x3A ∉ str) ∧
    (fmt = .short → str.length = 12 ∧ str.count 0x3A = 1)

/-- R54, R166: after the OUTSTR write, character c is byte (c mod 8) of OUT[c div 8], zero from OUTLEN on. -/
def Obligations.OutWindowShowsTheString : Prop :=
  ∀ (str : List Byte) (s : State), str.length ≤ 64 →
    (writeOutstr str s).outlen = str.length ∧
    ∀ c < 64, (readReg (writeOutstr str s) (.out (c / 8))).extractLsb' (8 * (c % 8)) 8 =
      if c < str.length then str.getD c 0 else 0

/-! ### Faults and phases (R130, R200 to R208) -/

/-- R203: the commands and phases of CONTRACT, which changes ERR and PHASE only; in every other phase but FAULTED a legal
command does not fault. -/
def Obligations.ContractFaultByPhase : Prop :=
  ∀ (i : Instr) (s : State), i.wellFormed = true → s.buf.length < 136 → s.sqpos ≤ 136 → s.phase ≠ .faulted →
    let contract : Prop := match i with
      | .nop => False
      | .init => False
      | .absorb _ => s.phase = .squeezing ∨ s.phase = .done
      | .finalize => s.phase = .done
      | .sqbegin => s.phase = .absorbing ∨ s.phase = .done
      | .squeeze _ => s.phase = .absorbing ∨ s.phase = .done
      | .digest _ => s.phase = .done
      | .permute => s.phase = .done
      | .ldlane _ => s.phase = .done
    (contract → exec i s = .next { s with err := .contract, phase := .faulted }) ∧
    (¬ contract → ∃ t, exec i s = .next t ∧ t.phase ≠ .faulted)

/-- R130: the transition table. -/
def Obligations.PhaseTransitionTable : Prop :=
  ∀ (i : Instr) (s : State), i.wellFormed = true → s.buf.length < 136 → s.sqpos ≤ 136 →
    ∃ t, exec i s = .next t ∧ t.phase = phaseAfter i s.phase

/-- R206, R207: in FAULTED every command value but the INIT word is ignored, and INIT leaves for ABSORBING with
ERR = NONE; DIN writes are accepted while BUSY = 0. -/
def Obligations.FaultedIgnoresAllButInit : Prop :=
  ∀ s : State, s.phase = .faulted →
    (∀ w : Word, w ≠ 0x0000000001000000 → outcome w s = .next s) ∧
    (∃ t, outcome 0x0000000001000000 s = .next t ∧ t.phase = .absorbing ∧ t.err = .none) ∧
    ∀ (v : Word) (n : Nat) (rest : List HostEvent), s.busy = false → s.host = .write 8 0x008 v n :: rest →
      step s = .next { s with host := rest, din := v }

/-- R201, R208: a command value that faults changes ERR and PHASE and nothing else; ILLEGAL is decided before CONTRACT. -/
def Obligations.FaultsArePrecise : Prop :=
  ∀ (w : Word) (s t : State), s.phase ≠ .faulted → outcome w s = .next t → t.phase = .faulted →
    (illegalValue w → t = { s with err := .illegal, phase := .faulted }) ∧
    (¬ illegalValue w → t = { s with err := .contract, phase := .faulted })

/-- R207: of the commands only INIT leads to ABSORBING from another phase, and only INIT clears a fault. -/
def Obligations.OnlyInitReturnsToAbsorbing : Prop :=
  ∀ (w : Word) (s t : State), outcome w s = .next t →
    (t.phase = .absorbing → s.phase ≠ .absorbing → w = 0x0000000001000000) ∧
    (s.phase = .faulted → t.phase ≠ .faulted ∨ t.err ≠ s.err → w = 0x0000000001000000)

/-! ### Who writes what (R22, R29 to R31, R142) -/

/-- R29: no command writes DIN; nor does one touch VIOL, the command in progress or the host's side. -/
def Obligations.CommandsNeverWriteDin : Prop :=
  ∀ (w : Word) (s t : State), outcome w s = .next t →
    t.din = s.din ∧ t.viol = s.viol ∧ t.pending = s.pending ∧ t.host = s.host ∧ t.rdata = s.rdata ∧
    t.busyReads = s.busyReads

/-- R30, R31, R166: only SQUEEZE and INIT write DOUT; only DIGEST and INIT write OUTSTR and OUTLEN. -/
def Obligations.ResultRegisterWriters : Prop :=
  ∀ (i : Instr) (s t : State), exec i s = .next t →
    (t.dout ≠ s.dout → i = .init ∨ ∃ n, i = .squeeze n) ∧
    (t.outstr ≠ s.outstr ∨ t.outlen ≠ s.outlen → i = .init ∨ ∃ fmt, i = .digest fmt)

/-- R22, R23: the commands that write the lane store; an ABSORB that completes no block, SQBEGIN, NOP and a SQUEEZE or
DIGEST inside the finalized block leave every byte, a capacity byte too. -/
def Obligations.LaneStoreWriters : Prop :=
  ∀ (i : Instr) (s t : State), exec i s = .next t → t.lanes ≠ s.lanes →
    i = .init ∨ i = .permute ∨ (∃ idx, i = .ldlane idx) ∨
    (∃ n, i = .absorb n ∧ 136 ≤ s.buf.length + n) ∨ (i = .finalize ∧ s.phase = .absorbing) ∨
    (∃ fmt, i = .digest fmt ∧ s.phase = .absorbing) ∨ (∃ n, i = .squeeze n ∧ 136 < s.sqpos + n)

/-! ### STATUS and the window (R32, R50 to R58) -/

/-- R25, R28, R32: every field of STATUS at its bits. -/
def Obligations.StatusFields : Prop :=
  (∀ s : State, s.InRange →
    (statusWord s).extractLsb' 0 2 = s.phase.code ∧ (statusWord s).getLsbD 2 = s.busy ∧
    (statusWord s).getLsbD 3 = s.fin ∧ (statusWord s).extractLsb' 4 4 = s.err.code ∧
    ((statusWord s).extractLsb' 8 8).toNat = s.buf.length ∧ ((statusWord s).extractLsb' 16 8).toNat = s.sqpos ∧
    ((statusWord s).extractLsb' 24 7).toNat = s.outlen ∧ (statusWord s).extractLsb' 31 33 = 0) ∧
  (Phase.absorbing.code = 0 ∧ Phase.squeezing.code = 1 ∧ Phase.done.code = 2 ∧ Phase.faulted.code = 3) ∧
  (ErrCode.none.code = 0 ∧ ErrCode.contract.code = 1 ∧ ErrCode.illegal.code = 2 ∧ ErrCode.busywr.code = 3)

/-- R50, R53, R54, R55: a read while BUSY = 0 returns the register at its offset, 0 from CMD and reserved offsets, and
changes nothing in the engine. -/
def Obligations.WindowReads : Prop :=
  ∀ (s : State) (off : Word) (rest : List HostEvent), s.busy = false → s.host = .read 8 off :: rest →
    off.toNat < 0x400 → off.toNat % 8 = 0 →
    let value : Word :=
      if off = 0x008 then s.din
      else if off = 0x010 then s.dout
      else if off = 0x018 then statusWord s
      else if 0x100 ≤ off.toNat ∧ off.toNat < 0x1C8 then laneAt s.lanes ((off.toNat - 0x100) / 8)
      else if 0x200 ≤ off.toNat ∧ off.toNat < 0x240 then
        packLE ((List.range 8).map fun k => s.outstr.toList.getD (off.toNat - 0x200 + k) 0)
      else 0
    step s = .next { s with host := rest, rdata := value }

/-- R55: while BUSY = 0 a write to DIN sets DIN, and a write to any register but CMD and DIN is ignored. -/
def Obligations.WindowWrites : Prop :=
  ∀ (s : State) (off v : Word) (n : Nat) (rest : List HostEvent), s.busy = false →
    s.host = .write 8 off v n :: rest → off.toNat < 0x400 → off.toNat % 8 = 0 → off ≠ 0x000 →
    step s = .next { s with host := rest, din := if off = 0x008 then v else s.din }

/-- R51: an access of another width, outside the window or at an unaligned offset is refused. The three names, the order in
which they are checked, and that BUSY makes no difference are the model's (DEDUCED, log entry 7). -/
def Obligations.BadAccessesAreRefused : Prop :=
  ∀ (s : State) (width : Nat) (off v : Word) (n : Nat) (rest : List HostEvent),
    s.host = .read width off :: rest ∨ s.host = .write width off v n :: rest →
    (width ≠ 8 → step s = .refused .accessWidth) ∧
    (width = 8 → 0x400 ≤ off.toNat → step s = .refused .accessOutsideWindow) ∧
    (width = 8 → off.toNat < 0x400 → off.toNat % 8 ≠ 0 → step s = .refused .accessAlignment)

/-- R7, R50, R51: wherever the platform puts IDN45_BASE, a multiple of 8, the host addresses the window accepts are
IDN45_BASE + 8k for k < 128. The offset form of an address is the model's (log entry 3). -/
def Obligations.WindowSitsAtItsBase : Prop :=
  Config.idn45Base.toNat % 8 = 0 ∧
  ∀ addr : Word, accessRefusal 8 (offsetOf addr) = none ↔
    ∃ k < 128, addr = Config.idn45Base + BitVec.ofNat 64 (8 * k)

/-! ### Steps, the BUSY handshake, reset (R5, R205, R214, R220 to R223) -/

/-- R5, R200, R223: a write of any value to CMD while BUSY = 0, at latency 0, is the value's outcome at the state without the
write: a decoded command is its exec, an illegal value raises Fault(ILLEGAL) and is ignored in FAULTED. -/
def Obligations.StepRunsTheDecodedCommand : Prop :=
  ∀ (s : State) (w : Word) (rest : List HostEvent), s.busy = false → s.host = .write 8 0x000 w 0 :: rest →
    step s = outcome w { s with host := rest } ∧
    (∀ i, decode w = .ok i → step s = exec i { s with host := rest }) ∧
    (illegalValue w → s.phase ≠ .faulted →
      step s = .next { s with host := rest, err := .illegal, phase := .faulted }) ∧
    (illegalValue w → s.phase = .faulted → step s = .next { s with host := rest })

/-- R223: an accepted write at latency n > 0, of any value, starts a busy period and changes nothing else. -/
def Obligations.AcceptedCommandWaits : Prop :=
  ∀ (s : State) (w : Word) (n : Nat) (rest : List HostEvent), s.busy = false → 0 < n →
    s.host = .write 8 0x000 w n :: rest → step s = .next { s with host := rest, pending := some ⟨w, n⟩ }

/-- R57: while BUSY = 1 and before the last access, STATUS reads with BUSY = 1 and the old fields, DIN reads DIN, and
DOUT, LANE and OUT read an unspecified value. CMD and reserved offsets read 0 by R55 (DEDUCED, log entry 11). -/
def Obligations.BusyReadsSeeTheOldStatus : Prop :=
  ∀ (s : State) (p : Pending) (off : Word) (rest : List HostEvent), s.pending = some p → 2 ≤ p.left →
    s.host = .read 8 off :: rest → off.toNat < 0x400 → off.toNat % 8 = 0 →
    (statusWord s).getLsbD 2 = true ∧
    (off = 0x008 → step s = .next { s with
      host := rest, pending := some { p with left := p.left - 1 }, rdata := s.din }) ∧
    (off = 0x018 → step s = .next { s with
      host := rest, pending := some { p with left := p.left - 1 }, rdata := statusWord s }) ∧
    (off = 0x010 ∨ (0x100 ≤ off.toNat ∧ off.toNat < 0x1C8) ∨ (0x200 ≤ off.toNat ∧ off.toNat < 0x240) →
      step s = .next { s with
        host := rest, pending := some { p with left := p.left - 1 }, rdata := Config.busyRead s.busyReads,
        busyReads := s.busyReads + 1 }) ∧
    (off = 0x000 ∨ (0x020 ≤ off.toNat ∧ off.toNat < 0x100) ∨ (0x1C8 ≤ off.toNat ∧ off.toNat < 0x200) ∨
      0x240 ≤ off.toNat → step s = .next { s with
        host := rest, pending := some { p with left := p.left - 1 }, rdata := 0 })

/-- R200 case 1, R205: while BUSY = 1 and before the last access, a write to CMD or DIN is discarded and sets VIOL; a
write to any other register is ignored. -/
def Obligations.BusyWritesAreDiscarded : Prop :=
  ∀ (s : State) (p : Pending) (off v : Word) (n : Nat) (rest : List HostEvent), s.pending = some p →
    2 ≤ p.left → s.host = .write 8 off v n :: rest → off.toNat < 0x400 → off.toNat % 8 = 0 →
    step s = .next { s with
      host := rest, pending := some { p with left := p.left - 1 },
      viol := if off = 0x000 ∨ off = 0x008 then true else s.viol }

/-- R57, R205, R223: the last access of a busy period, a read or write of any register, gets its value or sets VIOL as
while busy; then the outcome of the command is applied, then the VIOL check: BUSYWR unless the command itself left FAULTED;
then BUSY = 0. What the host read stays what that access returned. That the outcome is computed after the access is
DEDUCED, log entry 6; what CMD and reserved offsets do is the model's, log entry 11. -/
def Obligations.LastAccessCompletes : Prop :=
  ∀ (s t : State) (p : Pending) (e : HostEvent) (rest : List HostEvent), s.pending = some p → p.left = 1 →
    s.host = e :: rest → e.accepted = true → outcome p.cmd (afterBusyAccess e rest s) = .next t →
    ((s.viol = true ∨ e.writesCmdOrDin = true) → t.phase ≠ .faulted → step s = .next { t with
      err := .busywr, phase := .faulted, viol := false, pending := none }) ∧
    ((s.viol = false ∧ e.writesCmdOrDin = false) ∨ t.phase = .faulted →
      step s = .next { t with viol := false, pending := none }) ∧
    t.rdata = (afterBusyAccess e rest s).rdata ∧ t.busyReads = (afterBusyAccess e rest s).busyReads

/-- R58, R205, R223: a busy period of any length, with any accepted accesses in it, ends in the outcome the command had at
the moment of its write, with BUSYWR where one of the accesses wrote CMD or DIN and the command itself left no fault.
Only what the host read, and the count of unspecified reads, depend on the accesses. -/
def Obligations.BusyPeriodIsAtomic : Prop :=
  ∀ (s t : State) (w : Word) (accesses rest : List HostEvent), s.busy = false → s.viol = false →
    accesses ≠ [] → (∀ e ∈ accesses, e.accepted = true) →
    s.host = .write 8 0x000 w accesses.length :: (accesses ++ rest) →
    outcome w { s with host := rest } = .next t →
    ∃ (rd : Word) (k : Nat), stepN (accesses.length + 1) s = .next
      { (if accesses.any HostEvent.writesCmdOrDin = true ∧ t.phase ≠ .faulted then
          { t with err := .busywr, phase := .faulted } else t) with rdata := rd, busyReads := k }

/-- R223, R5: a host that polls STATUS until BUSY = 0 after a command sees, at every latency n, the command-level result,
and its last STATUS read shows it. -/
def Obligations.PolledCommandIsTheCommandLevel : Prop :=
  ∀ (s t : State) (i : Instr) (n : Nat) (rest : List HostEvent), i.wellFormed = true → s.busy = false →
    s.viol = false → s.host = (HostLine.cmd i).events n ++ rest → exec i { s with host := rest } = .next t →
    stepN (n + 2) s = .next { t with rdata := statusWord t } ∧ t.busy = false

/-- R220, R221: reset, in any state, a busy one too, gives every piece of engine state its reset value; INIT leaves the
same but for DIN, which it keeps. What the host does next and what it last read are not the engine's (log entry 10). -/
def Obligations.ResetAbandonsAndClears : Prop :=
  ∀ (s : State) (rest : List HostEvent), s.host = .reset :: rest →
    (∃ t, step s = .next t ∧ (∀ i < 25, laneAt t.lanes i = 0) ∧ t.buf = [] ∧ t.phase = .absorbing ∧ t.fin = false ∧
      t.err = .none ∧ t.sqpos = 0 ∧ t.din = 0 ∧ t.dout = 0 ∧ t.outstr = Vector.replicate 64 0 ∧ t.outlen = 0 ∧
      t.busy = false ∧ t.viol = false ∧ t.host = rest ∧ t.rdata = s.rdata ∧ t.busyReads = s.busyReads) ∧
    ∀ u, s.busy = false → s.viol = false → exec .init { s with host := rest } = .next u →
      step s = .next { u with din := 0 }

/-- R37: the reset value of every piece of state the spec names. -/
def Obligations.ResetValues : Prop :=
  (∀ i < 25, laneAt State.reset.lanes i = 0) ∧ State.reset.buf = [] ∧ State.reset.phase = .absorbing ∧
  State.reset.fin = false ∧ State.reset.err = .none ∧ State.reset.sqpos = 0 ∧ State.reset.din = 0 ∧
  State.reset.dout = 0 ∧ (∀ c < 64, State.reset.outstr.toList.getD c 0 = 0) ∧ State.reset.outlen = 0 ∧
  State.reset.busy = false ∧ State.reset.viol = false ∧ statusWord State.reset = 0

/-- R214: while the host does nothing, nothing changes. A step with no host event is the model's (log entry 1). -/
def Obligations.IdleEngineKeepsItsState : Prop :=
  ∀ s : State, s.host = [] → step s = .next s

/-! ### Invariants (R24 to R34, R142) -/

/-- The invariant holds at reset. -/
def Obligations.InvariantAtReset : Prop := State.reset.Inv

/-- R24, R26, R27, R28, R31, R34, R142: every step keeps the invariant. -/
def Obligations.StepKeepsTheInvariant : Prop :=
  ∀ s t : State, s.Inv → step s = .next t → t.Inv

/-- R112, R142, R209: under the invariant no command and no accepted host event is stuck: each answers a next state. -/
def Obligations.NothingIsStuckUnderTheInvariant : Prop :=
  (∀ (i : Instr) (s : State), s.Inv → ∃ t, exec i s = .next t) ∧
  ∀ (s : State) (e : HostEvent) (rest : List HostEvent), s.Inv → s.host = e :: rest →
    e.accepted = true ∨ e = .reset → ∃ t, step s = .next t

/-! ### Host sequences (R134, R141, R180 to R188) -/

/-- R134, R181: for every cut of a byte sequence into chunks of 1 to 8 bytes, the ABSORB commands of the chunks absorb the
sequence byte by byte; ABSORB_BYTES is one such cut; a sequence may be absorbed in two parts. R182, R189: UPDATE is
ABSORB_BYTES; in any other phase the first ABSORB of a nonempty UPDATE faults, the run has failed, ERR names the reason, and
of the engine only DIN, ERR and PHASE have changed. -/
def Obligations.ChunksAbsorbTheSequence : Prop :=
  (∀ (chunks : List (List Byte)) (s : State), (∀ c ∈ chunks, 1 ≤ c.length ∧ c.length ≤ 8) →
    s.phase = .absorbing → s.buf.length < 136 →
    ∃ r, runLines (chunks.flatMap absorbChunk) s = .next r ∧ r.values = [] ∧
      verdict r.seen = .unfinished ∧
      r.final = { absorbBytes chunks.flatten s with din := (chunks.getLast?.map packLE).getD s.din }) ∧
  (∀ m : List Byte, ∃ chunks : List (List Byte), (∀ c ∈ chunks, 1 ≤ c.length ∧ c.length ≤ 8) ∧
    chunks.flatten = m ∧ absorbLines m = chunks.flatMap absorbChunk) ∧
  (∀ (a b : List Byte) (s : State), absorbBytes (a ++ b) s = absorbBytes b (absorbBytes a s)) ∧
  (∀ m : List Byte, updateLines m = absorbLines m) ∧
  ∀ (m : List Byte) (s : State), m ≠ [] → s.phase ≠ .absorbing →
    ∃ r, runLines (updateLines m) s = .next r ∧ r.values = [] ∧
      verdict r.seen = .failed (if s.phase = .faulted then s.err.code else ErrCode.contract.code) ∧
      r.final = { s with
        din := packLE (m.drop (8 * ((m.length - 1) / 8)))
        err := if s.phase = .faulted then s.err else .contract
        phase := .faulted }

/-- R141, R184: SQUEEZE_CALL(n), from SQBEGIN on, returns the first n bytes of R(S0) ++ R(Perm(S0)) ++ …, permutes
(n − 1) div 136 times, and leaves SQPOS = n − 136·((n − 1) div 136). R189: in any other phase the run fails, ERR names the
reason, and there is no observation. SQUEEZE_CALL(0) issues no command and returns nothing. -/
def Obligations.SqueezeCallReturnsTheStream : Prop :=
  (∀ s : State, squeezeCall 0 s = .next (some [], ⟨[], [], s⟩)) ∧
  ∀ (n : Nat) (s : State), 1 ≤ n → s.busy = false →
    (s.phase = .squeezing →
      ∃ r, squeezeCall n s = .next (some ((outputStream ((n - 1) / 136 + 1) s.lanes).take n), r) ∧
        r.final = { s with
          lanes := permTimes ((n - 1) / 136) s.lanes
          sqpos := n - 136 * ((n - 1) / 136)
          dout := r.final.dout
          rdata := r.final.dout }) ∧
    (s.phase ≠ .squeezing → ∃ r, squeezeCall n s = .next (none, r) ∧
      verdict r.seen = .failed (if s.phase = .faulted then s.err.code else ErrCode.contract.code))

/-- R180, R183, R187, R189: HASH is the closed form, from every state in which no command is in progress, and its run has
ended, in DONE. A run that issues no DIGEST never has an end, whatever phase it starts in; a HEXDIGEST that comes, after any
lines, in DONE or FAULTED has failed, and no hash is observed, whatever OUTSTR holds; alone its ERR names the reason. That a
run which reads FAULTED after its end counts as failed is the model's, log entry 14. -/
def Obligations.HashIsTheClosedForm : Prop :=
  (∀ (data salt : Option (List Byte)) (fmt : Format) (s : State), s.busy = false →
    ∃ r, hashRun data salt fmt s = .next (some (closedHash (salt.getD [] ++ data.getD []) fmt), r) ∧
      verdict r.seen = .ended ∧ r.final.phase = .done ∧ r.final.busy = false) ∧
  (∀ (lines : List HostLine) (s : State) (r : Run), runLines lines s = .next r →
    (∀ fmt, .cmd (.digest fmt) ∉ lines) → verdict r.seen ≠ .ended) ∧
  (∀ (lines : List HostLine) (fmt : Format) (s : State) (q : Run), runLines lines s = .next q →
    q.final.phase = .done ∨ q.final.phase = .faulted →
    ∃ r err, hexdigestAfter lines fmt s = .next (none, r) ∧ verdict r.seen = .failed err) ∧
  ∀ (fmt : Format) (s : State), s.phase = .done ∨ s.phase = .faulted →
    ∃ r, hexdigest fmt s = .next (none, r) ∧
      verdict r.seen = .failed (if s.phase = .faulted then s.err.code else ErrCode.contract.code)

/-- R188: an absent salt is an empty salt, absent data is empty data, and a salt is data in front. -/
def Obligations.SaltLaws : Prop :=
  (∀ (data : Option (List Byte)) (fmt : Format), hashString data none fmt = hashString data (some []) fmt) ∧
  (∀ (salt : Option (List Byte)) (fmt : Format), hashString none salt fmt = hashString (some []) salt fmt) ∧
  ∀ (d salt : List Byte) (fmt : Format), hashString (some d) (some salt) fmt = hashString (some (salt ++ d)) none fmt

/-- R186: VALIDATE is true exactly of the three hashes of the data and salt. -/
def Obligations.ValidateAcceptsExactlyHashes : Prop :=
  ∀ (data cand : List Byte) (salt : Option (List Byte)),
    validate data cand salt = true ↔ ∃ fmt, hashString (some data) salt fmt = some cand
end

