-- ==== Sys2Proof/Laws/Commands.lean ====
section
/-! SUPPORT. Sys2Proof/Laws/Commands.lean: everything the shared operations of command dispatch can do (R200, R203), once,
to be cited instead of unfolded. -/

namespace Sys2Proof.Machine

/-- A legal command in a legal phase runs its effect (R200 case 5). -/
theorem dispatchCommand_runs {i : Instr} {effect : State → Result} {s : State} (hw : i.wellFormed = true)
    (hl : legalIn i s.phase = true) : dispatchCommand i effect s = effect s := by
  have h : ¬ (s.phase = .faulted ∧ i ≠ .init) := by
    rintro ⟨hp, hi⟩
    rw [hp] at hl
    cases i <;> simp_all [legalIn]
  simp [dispatchCommand, h, hw, hl]

/-- Every other command is ignored in FAULTED (R206). -/
theorem dispatchCommand_faulted {i : Instr} {effect : State → Result} {s : State} (hp : s.phase = .faulted)
    (hi : i ≠ .init) : dispatchCommand i effect s = .next s := by simp [dispatchCommand, hp, hi]

/-- A legal command in a wrong phase raises Fault(CONTRACT) (R200 case 4). -/
theorem dispatchCommand_contract {i : Instr} {effect : State → Result} {s : State} (hw : i.wellFormed = true)
    (hp : s.phase ≠ .faulted) (hl : legalIn i s.phase = false) :
    dispatchCommand i effect s = .next (raiseFault .contract s) := by simp [dispatchCommand, hp, hw, hl]

/-- An operand outside its range raises Fault(ILLEGAL) (R200 case 3). -/
theorem dispatchCommand_illegal {i : Instr} {effect : State → Result} {s : State} (hw : i.wellFormed = false)
    (hp : s.phase ≠ .faulted) : dispatchCommand i effect s = .next (raiseFault .illegal s) := by
  simp [dispatchCommand, hp, hw]

/-- All that the dispatch can do. -/
theorem dispatchCommand_cases (i : Instr) (effect : State → Result) (s : State) :
    (s.phase = .faulted ∧ i ≠ .init ∧ dispatchCommand i effect s = .next s) ∨
    (i.wellFormed = false ∧ (s.phase ≠ .faulted ∨ i = .init) ∧
      dispatchCommand i effect s = .next (raiseFault .illegal s)) ∨
    (i.wellFormed = true ∧ legalIn i s.phase = false ∧ (s.phase ≠ .faulted ∨ i = .init) ∧
      dispatchCommand i effect s = .next (raiseFault .contract s)) ∨
    (i.wellFormed = true ∧ legalIn i s.phase = true ∧ dispatchCommand i effect s = effect s) := by
  by_cases h : s.phase = .faulted ∧ i ≠ .init
  · exact .inl ⟨h.1, h.2, dispatchCommand_faulted h.1 h.2⟩
  · have h' : s.phase ≠ .faulted ∨ i = .init := by tauto
    cases hw : i.wellFormed
    · exact .inr (.inl ⟨rfl, h', by simp [dispatchCommand, h, hw]⟩)
    · cases hl : legalIn i s.phase
      · exact .inr (.inr (.inl ⟨rfl, rfl, h', by simp [dispatchCommand, h, hw, hl]⟩))
      · exact .inr (.inr (.inr ⟨rfl, rfl, dispatchCommand_runs hw hl⟩))

/-- A command over the buffer runs while BUFCNT ≤ 135. -/
theorem withBuffer_runs {effect : State → State} {s : State} (h : s.buf.length < 136) :
    withBuffer effect s = .next (effect s) := by simp [withBuffer, h]

/-- If a command over the buffer answers a next state, its effect did. -/
theorem withBuffer_next {effect : State → State} {s t : State} (h : withBuffer effect s = .next t) :
    s.buf.length < 136 ∧ t = effect s := by
  unfold withBuffer at h
  split at h
  · exact ⟨by simpa using ‹_›, by simpa using h.symm⟩
  · cases h

/-- A command at the cursor runs while SQPOS ≤ 136. -/
theorem withCursor_runs {effect : State → State} {s : State} (h : s.sqpos ≤ 136) :
    withCursor effect s = .next (effect s) := by simp [withCursor, h]

/-- If a command at the cursor answers a next state, its effect did. -/
theorem withCursor_next {effect : State → State} {s t : State} (h : withCursor effect s = .next t) :
    s.sqpos ≤ 136 ∧ t = effect s := by
  unfold withCursor at h
  split at h
  · exact ⟨by simpa using ‹_›, by simpa using h.symm⟩
  · cases h

end Sys2Proof.Machine
end

