-- ==== Sys2Proof/Laws/Lanes.lean ====
section
/-! SUPPORT. Sys2Proof/Laws/Lanes.lean: reading back what the lane store's operations write (R20, R21), bytes of a lane
(R10, R56) and the byte view of XorBlock (R121). -/

namespace Sys2Proof.Machine

/-! ### Lanes -/

theorem laneAt_lanesOf (f : Nat → Word) {i : Nat} (h : i < 25) : laneAt (lanesOf f) i = f i := by
  have : laneAt (lanesOf f) i = ((List.range 25).map f).getD i 0 := rfl
  simp [this, h]

theorem laneAt_of_ge (l : Lanes) {i : Nat} (h : 25 ≤ i) : laneAt l i = 0 := by
  simp [laneAt, h]

theorem matAt_matOf (f : Nat → Nat → Word) {x y : Nat} (hx : x < 5) (hy : y < 5) : matAt (matOf f) x y = f x y := by
  have h : 5 * y + x < 25 := by omega
  rw [matAt, matOf, laneAt_lanesOf _ h]
  congr 1 <;> omega

theorem laneAt_setLane (l : Lanes) {i : Nat} (h : i < 25) (v : Word) (j : Nat) :
    laneAt (setLane l i v) j = if j = i then v else laneAt l j := by
  simp only [laneAt, setLane, Vector.toList_setIfInBounds, List.getD_eq_getElem?_getD, List.getElem?_set]
  by_cases hij : j = i
  · subst hij; simp [h]
  · simp [hij, Ne.symm hij]

theorem laneAt_zero (i : Nat) : laneAt (Vector.replicate 25 0) i = 0 := by
  by_cases h : i < 25
  · simp [laneAt, List.getD_eq_getElem?_getD, Vector.toList_replicate, h,
      -List.reduceReplicate]
  · exact laneAt_of_ge _ (by omega)

/-- Two lane stores with the same 25 lanes are equal. -/
theorem lanes_ext {l m : Lanes} (h : ∀ i < 25, laneAt l i = laneAt m i) : l = m := by
  ext i hi : 1
  simpa [laneAt, hi] using h i hi

/-! ### Bytes of a word -/

theorem byteOf_getLsbD (v : Word) (k i : Nat) : (byteOf v k).getLsbD i = (decide (i < 8) && v.getLsbD (8 * k + i)) := by
  simp [byteOf]

theorem byteOf_xor (v w : Word) (k : Nat) : byteOf (v ^^^ w) k = byteOf v k ^^^ byteOf w k := by
  ext i; simp [byteOf]

theorem byteOf_zero (k : Nat) : byteOf 0 k = 0 := by ext i; simp [byteOf]

/-- Two words with the same eight bytes are equal. -/
theorem word_ext_bytes {v w : Word} (h : ∀ k < 8, byteOf v k = byteOf w k) : v = w := by
  apply BitVec.eq_of_getLsbD_eq
  intro i hi
  have hb := congrArg (fun b => b.getLsbD (i % 8)) (h (i / 8) (by omega))
  have he : 8 * (i / 8) + i % 8 = i := by omega
  have hm : i % 8 < 8 := by omega
  simpa only [byteOf_getLsbD, he, hm, decide_true, Bool.true_and] using hb

/-- Unpacking what `packLE` packed (R10). -/
theorem byteOf_packLE (bs : List Byte) {k : Nat} (h : k < 8) : byteOf (packLE bs) k = bs.getD k 0 := by
  induction bs generalizing k with
  | nil => simpa [packLE] using byteOf_zero k
  | cons b bs ih =>
    cases k with
    | zero => ext i hi; simp [packLE, byteOf, hi]; omega
    | succ k =>
      have ih' := ih (k := k) (by omega)
      simp only [List.getD_cons_succ, ← ih']
      ext i hi
      have h1 : 8 * (k + 1) + i - 8 = 8 * k + i := by omega
      have h2 : ¬ 8 * (k + 1) + i < 8 := by omega
      have h3 : 8 * (k + 1) + i < 64 := by omega
      have h4 : 8 ≤ 8 * (k + 1) + i := by omega
      simp [packLE, byteOf, h1, h2, h3, BitVec.getLsbD_of_ge b _ h4]
      rfl

/-- Packing the eight bytes of a word gives the word (R56). -/
theorem packLE_bytes (v : Word) : packLE ((List.range 8).map (byteOf v)) = v :=
  word_ext_bytes fun k hk => by rw [byteOf_packLE _ hk]; simp [hk]

/-! ### The byte view of the lane store -/

/-- The lane form of XorBlock (R121). -/
theorem laneAt_xorBlock (blk : List Byte) (l : Lanes) {i : Nat} (h : i < 25) :
    laneAt (xorBlock blk l) i =
      if i < 17 then laneAt l i ^^^ packLE ((blk.drop (8 * i)).take 8) else laneAt l i := by
  rw [xorBlock, laneAt_lanesOf _ h, Config.rateLanes]

/-- One byte of a lane packed from a block. -/
theorem byteOf_blockLane (blk : List Byte) (j : Nat) :
    byteOf (packLE ((blk.drop (8 * (j / 8))).take 8)) (j % 8) = blk.getD j 0 := by
  have h : j % 8 < 8 := by omega
  have he : 8 * (j / 8) + j % 8 = j := by omega
  rw [byteOf_packLE _ h]
  simp [h, List.getElem?_drop, he]

theorem stByte_zero (j : Nat) : stByte (Vector.replicate 25 0) j = 0 := by
  rw [stByte, laneAt_zero, byteOf_zero]

theorem rateBytes_length (l : Lanes) : (rateBytes l).length = 136 := by simp [rateBytes]

end Sys2Proof.Machine
end

