-- ==== Sys2Proof/Laws/State.lean ====
section
/-! SUPPORT. Sys2Proof/Laws/State.lean: what each named update of State does to each field, true by rfl, so that no
later proof unfolds a record update. -/

namespace Sys2Proof.Machine

@[simp] theorem raiseFault_lanes (code : ErrCode) (s : State) : (raiseFault code s).lanes = s.lanes := rfl
@[simp] theorem raiseFault_buf (code : ErrCode) (s : State) : (raiseFault code s).buf = s.buf := rfl
@[simp] theorem raiseFault_phase (code : ErrCode) (s : State) : (raiseFault code s).phase = Phase.faulted := rfl
@[simp] theorem raiseFault_fin (code : ErrCode) (s : State) : (raiseFault code s).fin = s.fin := rfl
@[simp] theorem raiseFault_sqpos (code : ErrCode) (s : State) : (raiseFault code s).sqpos = s.sqpos := rfl
@[simp] theorem raiseFault_err (code : ErrCode) (s : State) : (raiseFault code s).err = code := rfl
@[simp] theorem raiseFault_din (code : ErrCode) (s : State) : (raiseFault code s).din = s.din := rfl
@[simp] theorem raiseFault_dout (code : ErrCode) (s : State) : (raiseFault code s).dout = s.dout := rfl
@[simp] theorem raiseFault_outstr (code : ErrCode) (s : State) : (raiseFault code s).outstr = s.outstr := rfl
@[simp] theorem raiseFault_outlen (code : ErrCode) (s : State) : (raiseFault code s).outlen = s.outlen := rfl
@[simp] theorem raiseFault_viol (code : ErrCode) (s : State) : (raiseFault code s).viol = s.viol := rfl
@[simp] theorem raiseFault_pending (code : ErrCode) (s : State) : (raiseFault code s).pending = s.pending := rfl
@[simp] theorem raiseFault_host (code : ErrCode) (s : State) : (raiseFault code s).host = s.host := rfl
@[simp] theorem raiseFault_rdata (code : ErrCode) (s : State) : (raiseFault code s).rdata = s.rdata := rfl
@[simp] theorem raiseFault_busyReads (code : ErrCode) (s : State) : (raiseFault code s).busyReads = s.busyReads := rfl

@[simp] theorem newSession_lanes (s : State) : (newSession s).lanes = Vector.replicate 25 0 := rfl
@[simp] theorem newSession_buf (s : State) : (newSession s).buf = [] := rfl
@[simp] theorem newSession_phase (s : State) : (newSession s).phase = .absorbing := rfl
@[simp] theorem newSession_fin (s : State) : (newSession s).fin = false := rfl
@[simp] theorem newSession_sqpos (s : State) : (newSession s).sqpos = 0 := rfl
@[simp] theorem newSession_err (s : State) : (newSession s).err = .none := rfl
@[simp] theorem newSession_din (s : State) : (newSession s).din = s.din := rfl
@[simp] theorem newSession_dout (s : State) : (newSession s).dout = 0 := rfl
@[simp] theorem newSession_outstr (s : State) : (newSession s).outstr = Vector.replicate 64 0 := rfl
@[simp] theorem newSession_outlen (s : State) : (newSession s).outlen = 0 := rfl
@[simp] theorem newSession_viol (s : State) : (newSession s).viol = s.viol := rfl
@[simp] theorem newSession_pending (s : State) : (newSession s).pending = s.pending := rfl
@[simp] theorem newSession_host (s : State) : (newSession s).host = s.host := rfl
@[simp] theorem newSession_rdata (s : State) : (newSession s).rdata = s.rdata := rfl
@[simp] theorem newSession_busyReads (s : State) : (newSession s).busyReads = s.busyReads := rfl

@[simp] theorem resetEngine_lanes (s : State) : (resetEngine s).lanes = Vector.replicate 25 0 := rfl
@[simp] theorem resetEngine_buf (s : State) : (resetEngine s).buf = [] := rfl
@[simp] theorem resetEngine_phase (s : State) : (resetEngine s).phase = .absorbing := rfl
@[simp] theorem resetEngine_fin (s : State) : (resetEngine s).fin = false := rfl
@[simp] theorem resetEngine_sqpos (s : State) : (resetEngine s).sqpos = 0 := rfl
@[simp] theorem resetEngine_err (s : State) : (resetEngine s).err = .none := rfl
@[simp] theorem resetEngine_din (s : State) : (resetEngine s).din = 0 := rfl
@[simp] theorem resetEngine_dout (s : State) : (resetEngine s).dout = 0 := rfl
@[simp] theorem resetEngine_outstr (s : State) : (resetEngine s).outstr = Vector.replicate 64 0 := rfl
@[simp] theorem resetEngine_outlen (s : State) : (resetEngine s).outlen = 0 := rfl
@[simp] theorem resetEngine_viol (s : State) : (resetEngine s).viol = false := rfl
@[simp] theorem resetEngine_pending (s : State) : (resetEngine s).pending = none := rfl
@[simp] theorem resetEngine_host (s : State) : (resetEngine s).host = s.host := rfl
@[simp] theorem resetEngine_rdata (s : State) : (resetEngine s).rdata = s.rdata := rfl
@[simp] theorem resetEngine_busyReads (s : State) : (resetEngine s).busyReads = s.busyReads := rfl

@[simp] theorem doFinalize_lanes (s : State) : (doFinalize s).lanes = absorbBlock (padBlock s.buf) s.lanes := rfl
@[simp] theorem doFinalize_buf (s : State) : (doFinalize s).buf = [] := rfl
@[simp] theorem doFinalize_phase (s : State) : (doFinalize s).phase = .squeezing := rfl
@[simp] theorem doFinalize_fin (s : State) : (doFinalize s).fin = true := rfl
@[simp] theorem doFinalize_sqpos (s : State) : (doFinalize s).sqpos = 0 := rfl
@[simp] theorem doFinalize_err (s : State) : (doFinalize s).err = s.err := rfl
@[simp] theorem doFinalize_din (s : State) : (doFinalize s).din = s.din := rfl
@[simp] theorem doFinalize_dout (s : State) : (doFinalize s).dout = s.dout := rfl
@[simp] theorem doFinalize_outstr (s : State) : (doFinalize s).outstr = s.outstr := rfl
@[simp] theorem doFinalize_outlen (s : State) : (doFinalize s).outlen = s.outlen := rfl
@[simp] theorem doFinalize_viol (s : State) : (doFinalize s).viol = s.viol := rfl
@[simp] theorem doFinalize_pending (s : State) : (doFinalize s).pending = s.pending := rfl
@[simp] theorem doFinalize_host (s : State) : (doFinalize s).host = s.host := rfl
@[simp] theorem doFinalize_rdata (s : State) : (doFinalize s).rdata = s.rdata := rfl
@[simp] theorem doFinalize_busyReads (s : State) : (doFinalize s).busyReads = s.busyReads := rfl

@[simp] theorem writeOutstr_lanes (str : List Byte) (s : State) : (writeOutstr str s).lanes = s.lanes := rfl
@[simp] theorem writeOutstr_buf (str : List Byte) (s : State) : (writeOutstr str s).buf = s.buf := rfl
@[simp] theorem writeOutstr_phase (str : List Byte) (s : State) : (writeOutstr str s).phase = s.phase := rfl
@[simp] theorem writeOutstr_fin (str : List Byte) (s : State) : (writeOutstr str s).fin = s.fin := rfl
@[simp] theorem writeOutstr_sqpos (str : List Byte) (s : State) : (writeOutstr str s).sqpos = s.sqpos := rfl
@[simp] theorem writeOutstr_err (str : List Byte) (s : State) : (writeOutstr str s).err = s.err := rfl
@[simp] theorem writeOutstr_din (str : List Byte) (s : State) : (writeOutstr str s).din = s.din := rfl
@[simp] theorem writeOutstr_dout (str : List Byte) (s : State) : (writeOutstr str s).dout = s.dout := rfl
@[simp] theorem writeOutstr_outstr (str : List Byte) (s : State) : (writeOutstr str s).outstr = outstrOf str := rfl
@[simp] theorem writeOutstr_outlen (str : List Byte) (s : State) : (writeOutstr str s).outlen = str.length := rfl
@[simp] theorem writeOutstr_viol (str : List Byte) (s : State) : (writeOutstr str s).viol = s.viol := rfl
@[simp] theorem writeOutstr_pending (str : List Byte) (s : State) : (writeOutstr str s).pending = s.pending := rfl
@[simp] theorem writeOutstr_host (str : List Byte) (s : State) : (writeOutstr str s).host = s.host := rfl
@[simp] theorem writeOutstr_rdata (str : List Byte) (s : State) : (writeOutstr str s).rdata = s.rdata := rfl
@[simp] theorem writeOutstr_busyReads (str : List Byte) (s : State) : (writeOutstr str s).busyReads = s.busyReads := rfl

end Sys2Proof.Machine
end

