-- ==== Sys2Proof/Laws/Sponge.lean ====
section
/-! SUPPORT. Sys2Proof/Laws/Sponge.lean: what the sponge's primitives do to each part of the state (R132 to R138). -/

namespace Sys2Proof.Machine

/-! ### AbsorbByte: it changes the lane store and the buffer only -/

theorem absorbByte_eq (s : State) (b : Byte) :
    absorbByte s b = { s with lanes := (absorbByte s b).lanes, buf := (absorbByte s b).buf } := by
  unfold absorbByte; split <;> rfl

theorem absorbBytes_nil (s : State) : absorbBytes [] s = s := rfl

theorem absorbBytes_cons (b : Byte) (bs : List Byte) (s : State) :
    absorbBytes (b :: bs) s = absorbBytes bs (absorbByte s b) := rfl

theorem absorbBytes_append (as bs : List Byte) (s : State) :
    absorbBytes (as ++ bs) s = absorbBytes bs (absorbBytes as s) := List.foldl_append

theorem absorbBytes_eq (bs : List Byte) (s : State) :
    absorbBytes bs s = { s with lanes := (absorbBytes bs s).lanes, buf := (absorbBytes bs s).buf } := by
  induction bs generalizing s with
  | nil => rfl
  | cons b bs ih => rw [absorbBytes_cons, ih, absorbByte_eq]

theorem absorbByte_buf_lt {s : State} (h : s.buf.length < 136) (b : Byte) : (absorbByte s b).buf.length < 136 := by
  unfold absorbByte
  split
  · simp
  · simp at *; omega

/-- AbsorbByte keeps BUFCNT ≤ 135 (R142). -/
theorem absorbBytes_buf_lt {s : State} (h : s.buf.length < 136) (bs : List Byte) :
    (absorbBytes bs s).buf.length < 136 := by
  induction bs generalizing s with
  | nil => exact h
  | cons b bs ih => exact ih (absorbByte_buf_lt h b)

/-- Bytes that do not fill the buffer are only appended. -/
theorem absorbBytes_within {s : State} {bs : List Byte} (h : s.buf.length + bs.length < 136) :
    absorbBytes bs s = { s with buf := s.buf ++ bs } := by
  induction bs generalizing s with
  | nil => simp [absorbBytes_nil]
  | cons b bs ih =>
    simp only [List.length_cons] at h
    have hb : absorbByte s b = { s with buf := s.buf ++ [b] } := by
      simp [absorbByte]; omega
    rw [absorbBytes_cons, hb, ih (by simp; omega)]
    simp

/-- Bytes that fill the buffer exactly are absorbed as one block. -/
theorem absorbBytes_fills {s : State} {bs : List Byte} (h : s.buf.length + bs.length = 136) (hb : bs ≠ []) :
    absorbBytes bs s = { s with lanes := absorbBlock (s.buf ++ bs) s.lanes, buf := [] } := by
  obtain ⟨init, last, rfl⟩ := (List.eq_nil_or_concat bs).resolve_left hb
  rw [List.concat_eq_append] at h ⊢
  simp only [List.length_append, List.length_singleton] at h
  rw [absorbBytes_append, absorbBytes_within (bs := init) (by omega), absorbBytes_cons, absorbBytes_nil]
  have hl : s.buf.length + (init.length + 1) = 136 := by omega
  simp [absorbByte, hl]

/-! ### Byte sequences -/

theorem dinBytes_length (n : Nat) (v : Word) : (dinBytes n v).length = n := by simp [dinBytes]

theorem resize_length (bs : List Byte) (n : Nat) : (resize bs n).length = n := by
  simp [resize, zeros]

theorem padBlock_length (buf : List Byte) : (padBlock buf).length = 136 := by
  simp [padBlock, resize_length]

/-! ### SqueezeByte: it changes the lane store and the cursor only -/

theorem squeezeByte_eq (s : State) :
    (squeezeByte s).2 = { s with lanes := (squeezeByte s).2.lanes, sqpos := (squeezeByte s).2.sqpos } := by
  unfold squeezeByte nextBlock; split <;> rfl

theorem squeezeBytes_eq (n : Nat) (s : State) :
    (squeezeBytes n s).2 =
      { s with lanes := (squeezeBytes n s).2.lanes, sqpos := (squeezeBytes n s).2.sqpos } := by
  induction n generalizing s with
  | zero => rfl
  | succ n ih => simp only [squeezeBytes]; rw [ih, squeezeByte_eq]

theorem squeezeBytes_length (n : Nat) (s : State) : (squeezeBytes n s).1.length = n := by
  induction n generalizing s with
  | zero => rfl
  | succ n ih => simp [squeezeBytes, ih]

theorem squeezeByte_sqpos_le {s : State} (h : s.sqpos ≤ 136) : (squeezeByte s).2.sqpos ≤ 136 := by
  unfold squeezeByte nextBlock
  split
  · simp
  · simp at *; omega

/-- SqueezeByte keeps SQPOS ≤ 136 (R27). -/
theorem squeezeBytes_sqpos_le {s : State} (h : s.sqpos ≤ 136) (n : Nat) : (squeezeBytes n s).2.sqpos ≤ 136 := by
  induction n generalizing s with
  | zero => exact h
  | succ n ih => exact ih (squeezeByte_sqpos_le h)

/-- A squeeze that stays inside the current block reads the state and only advances the cursor (R138). -/
theorem squeezeBytes_within {n : Nat} {s : State} (h : s.sqpos + n ≤ 136) :
    squeezeBytes n s =
      ((List.range n).map (fun k => stByte s.lanes (s.sqpos + k)), { s with sqpos := s.sqpos + n }) := by
  induction n generalizing s with
  | zero => simp [squeezeBytes]
  | succ n ih =>
    have hne : s.sqpos ≠ 136 := by omega
    have hb : squeezeByte s = (stByte s.lanes s.sqpos, { s with sqpos := s.sqpos + 1 }) := by
      simp [squeezeByte, nextBlock, hne]
    rw [squeezeBytes, hb, ih (by simp; omega)]
    simp [List.range_succ_eq_map, Function.comp_def, Nat.add_comm, Nat.add_left_comm]

theorem squeezeBytes_add (m n : Nat) (s : State) :
    squeezeBytes (m + n) s =
      ((squeezeBytes m s).1 ++ (squeezeBytes n (squeezeBytes m s).2).1,
        (squeezeBytes n (squeezeBytes m s).2).2) := by
  induction m generalizing s with
  | zero => simp [squeezeBytes]
  | succ m ih => rw [Nat.succ_add, squeezeBytes, ih]; simp [squeezeBytes]

end Sys2Proof.Machine
end

