-- ==== Sys2Proof/Laws/Exec.lean ====
section
/-! SUPPORT. Sys2Proof/Laws/Exec.lean: each command as one dispatch of one effect, what an answered `exec` can be, and
closed forms of the effects that loop over bytes (R133, R140, R160). -/

namespace Sys2Proof.Machine

/-- The state a command leaves where it runs (R200 case 5). -/
def effectState : Instr → State → State
  | .nop => fun s => s
  | .init => newSession
  | .absorb n => fun s => absorbBytes (dinBytes n s.din) s
  | .finalize => finalizeOnce
  | .sqbegin => fun s => { s with sqpos := 0 }
  | .squeeze n => squeezeToDout n
  | .digest fmt => fun s => digestOut fmt (finalizeOnce s)
  | .permute => fun s => { s with lanes := perm s.lanes }
  | .ldlane idx => fun s => { s with lanes := setLane s.lanes idx (dinLane s) }

/-- A command's effect with the states it is stuck in (U8). -/
def effectResult : Instr → State → Result
  | .absorb n => withBuffer (effectState (.absorb n))
  | .finalize => withBuffer (effectState .finalize)
  | .digest fmt => withBuffer (effectState (.digest fmt))
  | .squeeze n => withCursor (effectState (.squeeze n))
  | i => fun s => .next (effectState i s)

/-- Every command is one dispatch of its effect. -/
theorem exec_eq_dispatch (i : Instr) (s : State) : exec i s = dispatchCommand i (effectResult i) s := by
  cases i <;> rfl

theorem effectResult_runs {i : Instr} {s : State} (hb : s.buf.length < 136) (hq : s.sqpos ≤ 136) :
    effectResult i s = .next (effectState i s) := by
  cases i
  all_goals first | exact withBuffer_runs hb | exact withCursor_runs hq | rfl

theorem effectResult_next {i : Instr} {s t : State} (h : effectResult i s = .next t) : t = effectState i s := by
  cases i
  all_goals first | exact (withBuffer_next h).2 | exact (withCursor_next h).2 | (cases h; rfl)

/-- A legal command in a legal phase, with the counters in range, leaves its effect. -/
theorem exec_runs {i : Instr} {s : State} (hw : i.wellFormed = true) (hl : legalIn i s.phase = true)
    (hb : s.buf.length < 136) (hq : s.sqpos ≤ 136) : exec i s = .next (effectState i s) := by
  rw [exec_eq_dispatch, dispatchCommand_runs hw hl, effectResult_runs hb hq]

/-- All that an answered command can be: ignored, an ILLEGAL fault, a CONTRACT fault, or its effect. -/
theorem exec_next_cases {i : Instr} {s t : State} (h : exec i s = .next t) :
    (s.phase = .faulted ∧ i ≠ .init ∧ t = s) ∨
    (i.wellFormed = false ∧ s.phase ≠ .faulted ∧ t = raiseFault .illegal s) ∨
    (i.wellFormed = true ∧ legalIn i s.phase = false ∧ s.phase ≠ .faulted ∧ t = raiseFault .contract s) ∨
    (i.wellFormed = true ∧ legalIn i s.phase = true ∧ t = effectState i s) := by
  rw [exec_eq_dispatch] at h
  have hill : i.wellFormed = false → i ≠ .init := by rintro h rfl; cases h
  have hcon : legalIn i s.phase = false → i ≠ .init := by rintro h rfl; revert h; cases s.phase <;> simp [legalIn]
  rcases dispatchCommand_cases i (effectResult i) s with ⟨hp, hi, hd⟩ | ⟨hw, hp, hd⟩ | ⟨hw, hl, hp, hd⟩ | ⟨hw, hl, hd⟩ <;>
    rw [hd] at h
  · cases h; exact .inl ⟨hp, hi, rfl⟩
  · cases h; exact .inr (.inl ⟨hw, hp.resolve_right (hill hw), rfl⟩)
  · cases h; exact .inr (.inr (.inl ⟨hw, hl, hp.resolve_right (hcon hl), rfl⟩))
  · exact .inr (.inr (.inr ⟨hw, hl, effectResult_next h⟩))

/-! ### Closed forms -/

/-- The finalize step of FINALIZE and DIGEST writes five fields. -/
theorem finalizeOnce_eq (s : State) :
    finalizeOnce s = { s with
      lanes := (finalizeOnce s).lanes, buf := (finalizeOnce s).buf, phase := (finalizeOnce s).phase,
      fin := (finalizeOnce s).fin, sqpos := (finalizeOnce s).sqpos } := by
  unfold finalizeOnce; split <;> rfl

/-- At most a word of bytes that completes a block: one XorBlock and Perm, the rest buffered. -/
theorem absorbBytes_completes {bs : List Byte} {s : State} (hb : s.buf.length < 136)
    (hc : 136 ≤ s.buf.length + bs.length) (hl : bs.length ≤ 8) :
    absorbBytes bs s = { s with
      lanes := absorbBlock ((s.buf ++ bs).take 136) s.lanes, buf := (s.buf ++ bs).drop 136 } := by
  obtain ⟨k, hk⟩ : ∃ k, k = 136 - s.buf.length := ⟨_, rfl⟩
  have hlen : (bs.take k).length = k := by simp; omega
  have hne : bs.take k ≠ [] := fun h => by rw [h] at hlen; simp at hlen; omega
  have htake : (s.buf ++ bs).take 136 = s.buf ++ bs.take k := by
    rw [List.take_append, List.take_of_length_le (by omega), hk]
  have hdrop : (s.buf ++ bs).drop 136 = bs.drop k := by
    rw [List.drop_append, List.drop_of_length_le (by omega), hk]; rfl
  conv_lhs => rw [← List.take_append_drop k bs]
  rw [absorbBytes_append, absorbBytes_fills (by omega) hne, absorbBytes_within (by simp; omega), htake, hdrop]
  simp only [List.nil_append]

/-- A squeeze across one block boundary (R138, R140): the rest of the block, then the front of the permuted state. -/
theorem squeezeBytes_crosses {n : Nat} {s : State} (hq : s.sqpos ≤ 136) (hc : 136 < s.sqpos + n) (hn : n ≤ 136) :
    squeezeBytes n s =
      ((List.range (136 - s.sqpos)).map (fun k => stByte s.lanes (s.sqpos + k)) ++
        (List.range (s.sqpos + n - 136)).map (stByte (perm s.lanes)),
       { s with lanes := perm s.lanes, sqpos := s.sqpos + n - 136 }) := by
  obtain ⟨a, ha⟩ : ∃ a, a = 136 - s.sqpos := ⟨_, rfl⟩
  obtain ⟨b, hb⟩ : ∃ b, b + 1 = s.sqpos + n - 136 := ⟨s.sqpos + n - 137, by omega⟩
  have hab : n = a + (b + 1) := by omega
  have hend : s.sqpos + a = 136 := by omega
  have hnext : squeezeBytes (b + 1) { s with sqpos := 136 } =
      squeezeBytes (b + 1) { s with lanes := perm s.lanes, sqpos := 0 } := by
    rw [squeezeBytes, squeezeBytes]; rfl
  have hrest : s.sqpos + (a + (b + 1)) - 136 = b + 1 := by omega
  rw [hab, squeezeBytes_add, squeezeBytes_within (by omega), hend, hnext, squeezeBytes_within (by simp; omega), ← ha]
  simp [hrest]

theorem digestLen_le (fmt : Format) : digestLen fmt ≤ 136 := by cases fmt <;> decide

/-- DIGEST's raw bytes are the first bytes of the rate region (R160). -/
theorem squeezeBytes_front (fmt : Format) (s : State) :
    squeezeBytes (digestLen fmt) { s with sqpos := 0 } =
      ((rateBytes s.lanes).take (digestLen fmt), { s with sqpos := digestLen fmt }) := by
  rw [squeezeBytes_within (by simpa using digestLen_le fmt)]
  simp only [rateBytes, ← List.map_take, List.take_range, Nat.zero_add, Nat.min_eq_left (digestLen_le fmt)]

end Sys2Proof.Machine
end

