-- ==== Sys2Proof/Laws/Formatter.lean ====
section
/-! SUPPORT. Sys2Proof/Laws/Formatter.lean: hex strings (R162) and OUTSTR seen through the OUT window (R54, R166). -/

namespace Sys2Proof.Machine

theorem hexEncode_cons (b : Byte) (bs : List Byte) :
    hexEncode (b :: bs) = hexDigit (b.toNat / 16) :: hexDigit (b.toNat % 16) :: hexEncode bs := rfl

/-- No hex digit is a colon or a dash (R168). -/
theorem hexDigit_ne (b : Byte) :
    hexDigit (b.toNat / 16) ≠ 0x3A ∧ hexDigit (b.toNat / 16) ≠ 0x2D ∧
    hexDigit (b.toNat % 16) ≠ 0x3A ∧ hexDigit (b.toNat % 16) ≠ 0x2D := by
  revert b; decide

theorem mem_hexEncode {raw : List Byte} {c : Byte} (h : c ∈ hexEncode raw) : c ≠ 0x3A ∧ c ≠ 0x2D := by
  induction raw with
  | nil => simp [hexEncode] at h
  | cons b bs ih =>
    rw [hexEncode_cons] at h
    obtain ⟨h1, h2, h3, h4⟩ := hexDigit_ne b
    rcases List.mem_cons.1 h with rfl | h
    · exact ⟨h1, h2⟩
    rcases List.mem_cons.1 h with rfl | h
    · exact ⟨h3, h4⟩
    · exact ih h

/-- The digit of a value reads back as the value (R162, R165). -/
theorem hexValue_hexDigit : ∀ d < 16, hexValue (hexDigit d) = d := by decide

/-- Character c of OUTSTR after its write (R166). -/
theorem outstrOf_getD (str : List Byte) {c : Nat} (hc : c < 64) : (outstrOf str).toList.getD c 0 = str.getD c 0 := by
  have : (outstrOf str).toList = (List.range 64).map fun k => str.getD k 0 := rfl
  rw [this]; simp [hc]

/-- Character c of OUTSTR is byte c mod 8 of OUT[c div 8] (R54). -/
theorem byteOf_outWord (s : State) (c : Nat) : byteOf (outWord s (c / 8)) (c % 8) = s.outstr.toList.getD c 0 := by
  have hlt : c % 8 < 8 := Nat.mod_lt _ (by omega)
  have hc : 8 * (c / 8) + c % 8 = c := by omega
  rw [outWord, byteOf_packLE _ hlt]
  simp [hlt, List.getElem?_drop, hc]

end Sys2Proof.Machine
end

