-- ==== Sys2Proof/Laws/HostSeq.lean ====
section
/-! SUPPORT. Sys2Proof/Laws/HostSeq.lean: runs of host lines (R77) put together and taken apart, and the verdict on a run
(R189). -/

namespace Sys2Proof.Machine

@[simp] theorem andThen_next {α β : Type} (x : α) (f : α → HostResult β) : andThen (.next x) f = f x := rfl

/-- If a host program that goes on answers a result, so did its first part. -/
theorem andThen_eq_next {α β : Type} {o : HostResult α} {f : α → HostResult β} {y : β} (h : andThen o f = .next y) :
    ∃ x, o = .next x ∧ f x = .next y := by
  cases o with
  | next x => exact ⟨x, rfl, h⟩
  | fault r => cases h
  | refused r => cases h

@[simp] theorem Run.append_seen (r q : Run) : (r.append q).seen = r.seen ++ q.seen := rfl
@[simp] theorem Run.append_values (r q : Run) : (r.append q).values = r.values ++ q.values := rfl
@[simp] theorem Run.append_final (r q : Run) : (r.append q).final = q.final := rfl

theorem Run.append_assoc (r q u : Run) : (r.append q).append u = r.append (q.append u) := by
  simp [Run.append, List.append_assoc]

@[simp] theorem HostLine.effect_cmd (i : Instr) (s : State) : (HostLine.cmd i).effect s = exec i s := rfl
@[simp] theorem HostLine.effect_wrDin (v : Word) (s : State) :
    (HostLine.wrDin v).effect s = .next { s with din := v } := rfl
@[simp] theorem HostLine.effect_rd (r : ReadReg) (s : State) :
    (HostLine.rd r).effect s = .next (hostRead (windowReg r.offset) s) := rfl

@[simp] theorem runLines_nil (s : State) : runLines [] s = .next ⟨[], [], s⟩ := rfl

/-- A run whose first line leaves `t` and whose rest is the run `r`. -/
theorem runLines_cons {line : HostLine} {rest : List HostLine} {s t : State} {r : Run}
    (hl : line.effect s = .next t) (hr : runLines rest t = .next r) :
    runLines (line :: rest) s = .next (Run.append ⟨line.seen t, line.values t, t⟩ r) := by
  simp only [runLines, hl, hr, andThen_next]

/-- Two runs in a row. -/
theorem runLines_append {as bs : List HostLine} {s : State} {r q : Run} (ha : runLines as s = .next r)
    (hb : runLines bs r.final = .next q) : runLines (as ++ bs) s = .next (r.append q) := by
  induction as generalizing s r with
  | nil => cases ha; simpa [Run.append] using hb
  | cons a as ih =>
    obtain ⟨t, ht, h⟩ := andThen_eq_next ha
    obtain ⟨u, hu, h⟩ := andThen_eq_next h
    cases h
    rw [List.cons_append, runLines_cons ht (ih hu hb), Run.append_assoc]

/-- The registers of RD lines lie at their offsets in the window map (R50, R77). -/
theorem windowReg_offset (r : ReadReg) :
    windowReg r.offset =
      match r with
      | .din => .din
      | .dout => .dout
      | .status => .status
      | .lane i => .lane i
      | .out k => .out k := by
  cases r with
  | lane i => revert i; decide
  | out k => revert k; decide
  | _ => rfl

/-! ### STATUS as a run reads it -/

/-- The low byte of STATUS: PHASE, BUSY, FIN and ERR (R32). -/
theorem statusWord_low (s : State) :
    (statusWord s).extractLsb' 0 8 = s.err.code ++ BitVec.ofBool s.fin ++ BitVec.ofBool s.busy ++ s.phase.code := by
  apply BitVec.eq_of_getLsbD_eq
  intro i hi
  simp only [statusWord, BitVec.getLsbD_extractLsb', BitVec.getLsbD_append, Nat.zero_add, hi, decide_true, Bool.true_and]
  split_ifs <;> first | rfl | omega

theorem extractLsb'_low {n k : Nat} (w : Word) (h : n + k ≤ 8) :
    w.extractLsb' n k = (w.extractLsb' 0 8).extractLsb' n k := by
  ext i hi; simp; omega

theorem getLsbD_low {n : Nat} (w : Word) (h : n < 8) : w.getLsbD n = (w.extractLsb' 0 8).getLsbD n := by
  simp [h]

theorem statusFailed_statusWord (s : State) : statusFailed (statusWord s) = decide (s.phase = .faulted) := by
  rw [statusFailed, extractLsb'_low _ (by omega), statusWord_low]
  cases s.phase <;> cases s.err <;> cases s.fin <;> cases s.busy <;> rfl

theorem statusEnded_statusWord (s : State) : statusEnded (statusWord s) = (!s.busy && decide (s.phase = .done)) := by
  rw [statusEnded, extractLsb'_low _ (by omega), getLsbD_low _ (by omega), statusWord_low]
  cases s.phase <;> cases s.err <;> cases s.fin <;> cases s.busy <;> rfl

/-- The ERR field of a STATUS value read (R28, R32). -/
theorem statusErr_statusWord (s : State) : (statusWord s).extractLsb' 4 4 = s.err.code := by
  rw [extractLsb'_low _ (by omega), statusWord_low]
  cases s.phase <;> cases s.err <;> cases s.fin <;> cases s.busy <;> rfl

/-! ### The verdict, taken apart -/

theorem failureOf_append (a b : List Seen) : failureOf (a ++ b) = (failureOf a).or (failureOf b) := by
  induction a with
  | nil => simp [failureOf]
  | cons e a ih =>
    cases e with
    | issued i => exact ih
    | status w =>
      simp only [List.cons_append, failureOf]
      split_ifs
      · rfl
      · exact ih

/-- No DIGEST is issued in this part of a run. -/
abbrev NoDigest (a : List Seen) : Prop := ∀ i, .issued i ∈ a → isDigest i = false

/-- Without a DIGEST there is no end. -/
theorem digestEnded_of_noDigest {a : List Seen} (h : NoDigest a) : digestEnded a = false := by
  induction a with
  | nil => rfl
  | cons e a ih =>
    have ih := ih fun i hi => h i (List.mem_cons_of_mem _ hi)
    cases e with
    | issued i => simp [digestEnded, h i (List.mem_cons_self ..), ih]
    | status w => exact ih

/-- What goes before the first DIGEST does not bring the end. -/
theorem digestEnded_append {a : List Seen} (h : NoDigest a) (b : List Seen) : digestEnded (a ++ b) = digestEnded b := by
  induction a with
  | nil => rfl
  | cons e a ih =>
    have ih := ih fun i hi => h i (List.mem_cons_of_mem _ hi)
    cases e with
    | issued i => simp [digestEnded, h i (List.mem_cons_self ..), ih]
    | status w => exact ih

/-- A run that has failed has failed, whatever follows. -/
theorem verdict_append_failed {a : List Seen} {err : BitVec 4} (h : failureOf a = some err) (b : List Seen) :
    verdict (a ++ b) = .failed err := by
  simp [verdict, failureOf_append, h]

/-- A part with no failure and no DIGEST leaves the verdict to what follows. -/
theorem verdict_append_open {a : List Seen} (hf : failureOf a = none) (hd : NoDigest a) (b : List Seen) :
    verdict (a ++ b) = verdict b := by
  simp [verdict, failureOf_append, hf, digestEnded_append hd]

/-- The verdict is failed exactly where the run read PHASE = FAULTED. -/
theorem verdict_eq_failed {a : List Seen} {err : BitVec 4} : verdict a = .failed err ↔ failureOf a = some err := by
  unfold verdict
  split
  · simp [*]
  · split_ifs <;> simp [*]

/-- The verdict is ended exactly where the run read no FAULTED and, after a DIGEST, the end. -/
theorem verdict_eq_ended {a : List Seen} : verdict a = .ended ↔ failureOf a = none ∧ digestEnded a = true := by
  unfold verdict
  split
  · simp [*]
  · split_ifs <;> simp [*]

/-- A STATUS read of the state `s`: a failure exactly where PHASE is FAULTED. -/
theorem failureOf_status (s : State) (rest : List Seen) :
    failureOf (.status (statusWord s) :: rest) = if s.phase = .faulted then some s.err.code else failureOf rest := by
  simp [failureOf, statusFailed_statusWord, statusErr_statusWord]

/-- A DIGEST whose POLL shows DONE, with no failure after it, ends the run. -/
theorem verdict_digest_done {s : State} {fmt : Format} {rest : List Seen} (h : s.phase = .done) (hb : s.busy = false)
    (hr : failureOf rest = none) : verdict (.issued (.digest fmt) :: .status (statusWord s) :: rest) = .ended := by
  rw [verdict_eq_ended]
  refine ⟨?_, ?_⟩
  · show failureOf (.status (statusWord s) :: rest) = none
    rw [failureOf_status, if_neg (by simp [h]), hr]
  · simp [digestEnded, isDigest, Seen.showsEnd, statusEnded_statusWord, h, hb]

/-- The commands a line issues. -/
theorem HostLine.issued_mem_seen {line : HostLine} {t : State} {i : Instr} (h : .issued i ∈ line.seen t) :
    line = .cmd i := by
  cases line with
  | cmd j => simp [HostLine.seen] at h; rw [h]
  | wrDin v => simp [HostLine.seen] at h
  | rd r => cases r <;> simp [HostLine.seen] at h

/-- A run issues the commands of its lines and no other. -/
theorem issued_mem_runLines {lines : List HostLine} {s : State} {r : Run} (h : runLines lines s = .next r) {i : Instr}
    (hi : .issued i ∈ r.seen) : .cmd i ∈ lines := by
  induction lines generalizing s r with
  | nil => cases h; simp at hi
  | cons line lines ih =>
    obtain ⟨t, ht, h⟩ := andThen_eq_next h
    obtain ⟨q, hq, h⟩ := andThen_eq_next h
    cases h
    rcases List.mem_append.1 hi with hi | hi
    · rw [HostLine.issued_mem_seen hi]; exact List.mem_cons_self ..
    · exact List.mem_cons_of_mem _ (ih hq hi)

end Sys2Proof.Machine
end

