-- ==== Sys2Proof/Laws/PerInstr.lean ====
section
/-! SUPPORT. Sys2Proof/Laws/PerInstr.lean: the per-instruction family EncodeFields: the four fields of R70 and R71 in the
encoding of each command. -/

namespace Sys2Proof.Laws.EncodeFields

/-- The encoding of `i` has w[63:32] = 0, RSV = 0, and its OPC and ARG at their bits (R70, R71). -/
def Statement (i : Instr) : Prop :=
  fieldHigh (encode i) = 0 ∧ fieldRsv (encode i) = 0 ∧ fieldOpc (encode i) = i.opc ∧ fieldArg (encode i) = i.arg

/-- The fields of any value put together from an opcode and an argument. -/
theorem fields (o a : BitVec 8) :
    fieldHigh (0#32 ++ o ++ 0#16 ++ a) = 0 ∧ fieldRsv (0#32 ++ o ++ 0#16 ++ a) = 0 ∧
    fieldOpc (0#32 ++ o ++ 0#16 ++ a) = o ∧ fieldArg (0#32 ++ o ++ 0#16 ++ a) = a := by
  simp only [fieldHigh, fieldRsv, fieldOpc, fieldArg]
  refine ⟨?_, ?_, ?_, ?_⟩ <;> ext j hj <;>
    simp only [BitVec.getElem_extractLsb', BitVec.getLsbD_append, BitVec.getLsbD_zero, Nat.zero_add]
  · rw [if_neg (by omega), if_neg (by omega), if_neg (by omega)]; exact (BitVec.getElem_zero (by omega)).symm
  · rw [if_neg (by omega), if_pos (by omega)]; exact (BitVec.getElem_zero (by omega)).symm
  · rw [if_neg (by omega), if_neg (by omega), if_pos (by omega), ← BitVec.getLsbD_eq_getElem]; congr 1; omega
  · rw [if_pos (by omega)]; rfl

theorem nop : Statement .nop := fields _ _
theorem init : Statement .init := fields _ _
theorem absorb (n : Nat) : Statement (.absorb n) := fields _ _
theorem finalize : Statement .finalize := fields _ _
theorem sqbegin : Statement .sqbegin := fields _ _
theorem squeeze (n : Nat) : Statement (.squeeze n) := fields _ _
theorem digest (fmt : Format) : Statement (.digest fmt) := fields _ _
theorem permute : Statement .permute := fields _ _
theorem ldlane (idx : Nat) : Statement (.ldlane idx) := fields _ _

end Sys2Proof.Laws.EncodeFields
end

