-- ==== Sys2Proof/Laws/Window.lean ====
section
/-! SUPPORT. Sys2Proof/Laws/Window.lean: what each part of one host event can do (R55, R57, R223), once, and that a
command does not look at the host's side of the window. -/

namespace Sys2Proof.Machine

/-- An aligned 64-bit access inside the window is accepted (R51). -/
theorem accessRefusal_aligned {off : Word} (hlt : off.toNat < 0x400) (hal : off.toNat % 8 = 0) :
    accessRefusal 8 off = none := by
  simp [accessRefusal, hal]; omega

/-- What an answered command value can be: a command's answer, or a rejection. -/
theorem outcome_next_cases {w : Word} {s t : State} (h : outcome w s = .next t) :
    (∃ i, decode w = .ok i ∧ exec i s = .next t) ∨ ((∃ e, decode w = .error e) ∧ t = rejectCommand s) := by
  unfold outcome at h
  split at h
  · exact .inr ⟨⟨_, by assumption⟩, by cases h; rfl⟩
  · exact .inl ⟨_, by assumption, h⟩

/-- A read whose value the spec states. -/
theorem hostRead_stated {s : State} {r : WindowReg} (h : s.busy = false ∨ unspecifiedWhileBusy r = false) :
    hostRead r s = { s with rdata := readReg s r } := by
  rcases h with h | h <;> simp [hostRead, h]

/-- A read whose value the spec leaves open (R57). -/
theorem hostRead_unspecified {s : State} {r : WindowReg} (hb : s.busy = true) (hu : unspecifiedWhileBusy r = true) :
    hostRead r s = { s with rdata := Config.busyRead s.busyReads, busyReads := s.busyReads + 1 } := by
  simp [hostRead, hb, hu]

/-- A busy access that is not the last. -/
theorem countAccess_more {s : State} {p : Pending} (hp : s.pending = some p) (hl : 2 ≤ p.left) :
    countAccess s = .next { s with pending := some { p with left := p.left - 1 } } := by
  have : ¬ p.left ≤ 1 := by omega
  simp only [countAccess, hp, this, if_false]

/-- The step of an accepted read. -/
theorem step_read {s : State} {off : Word} {rest : List HostEvent} (hh : s.host = .read 8 off :: rest)
    (ha : accessRefusal 8 off = none) :
    step s = countAccess (hostRead (windowReg off.toNat) { s with host := rest }) := by
  simp only [step, hh, hostEvent, ha]

/-- Steps in a row. -/
theorem stepN_add (a b : Nat) (s : State) :
    stepN (a + b) s = match stepN a s with
      | .next t => stepN b t
      | .fault r => .fault r
      | .refused r => .refused r := by
  induction a generalizing s with
  | zero => simp [stepN]
  | succ a ih =>
    rw [Nat.succ_add, stepN, stepN]
    cases step s <;> simp [ih]

/-! ### A command and the host's side -/

/-- `s` with another host side: VIOL, the command in progress and the model's own fields. -/
def withHostSide (viol : Bool) (pending : Option Pending) (host : List HostEvent) (rdata : Word) (reads : Nat)
    (s : State) : State :=
  { s with viol := viol, pending := pending, host := host, rdata := rdata, busyReads := reads }

/-- A result with `f` applied to its state. -/
def mapNext (f : State → State) : Result → Result
  | .next s => .next (f s)
  | .fault r => .fault r
  | .refused r => .refused r

theorem absorbBytes_hostSide (v p h r k) (bs : List Byte) (s : State) :
    absorbBytes bs (withHostSide v p h r k s) = withHostSide v p h r k (absorbBytes bs s) := by
  induction bs generalizing s with
  | nil => rfl
  | cons b bs ih =>
    rw [absorbBytes_cons, absorbBytes_cons, ← ih]; congr 1
    by_cases hc : (s.buf ++ [b]).length = Config.rate <;> simp only [absorbByte, withHostSide, hc, if_true, if_false]

theorem finalizeOnce_hostSide (v p h r k) (s : State) :
    finalizeOnce (withHostSide v p h r k s) = withHostSide v p h r k (finalizeOnce s) := by
  by_cases hc : s.phase = .absorbing
  · simp only [finalizeOnce, withHostSide, hc, if_true]; rfl
  · simp only [finalizeOnce, withHostSide, hc, if_false]

theorem squeezeBytes_hostSide (v p h r k) (n : Nat) (s : State) :
    squeezeBytes n (withHostSide v p h r k s) =
      ((squeezeBytes n s).1, withHostSide v p h r k (squeezeBytes n s).2) := by
  induction n generalizing s with
  | zero => rfl
  | succ n ih =>
    have hb : squeezeByte (withHostSide v p h r k s) = ((squeezeByte s).1, withHostSide v p h r k (squeezeByte s).2) := by
      by_cases hc : s.sqpos = Config.rate <;> simp only [squeezeByte, nextBlock, withHostSide, hc, if_true, if_false]
    rw [squeezeBytes, hb, ih]; rfl

theorem digestOut_hostSide (v p h r k) (fmt : Format) (s : State) :
    digestOut fmt (withHostSide v p h r k s) = withHostSide v p h r k (digestOut fmt s) := by
  have hz : ({ withHostSide v p h r k s with sqpos := 0 } : State) = withHostSide v p h r k { s with sqpos := 0 } := rfl
  simp only [digestOut, hz, squeezeBytes_hostSide]; rfl

theorem effectResult_hostSide (v p h r k) (i : Instr) (s : State) :
    effectResult i (withHostSide v p h r k s) = mapNext (withHostSide v p h r k) (effectResult i s) := by
  have hbuf : (withHostSide v p h r k s).buf = s.buf := rfl
  have hpos : (withHostSide v p h r k s).sqpos = s.sqpos := rfl
  have hdin : (withHostSide v p h r k s).din = s.din := rfl
  cases i
  case absorb n =>
    simp only [effectResult, effectState, withBuffer, hbuf, hdin, absorbBytes_hostSide]; split <;> rfl
  case finalize => simp only [effectResult, effectState, withBuffer, hbuf, finalizeOnce_hostSide]; split <;> rfl
  case squeeze n =>
    simp only [effectResult, effectState, squeezeToDout, withCursor, hpos, squeezeBytes_hostSide]; split <;> rfl
  case digest fmt =>
    simp only [effectResult, effectState, withBuffer, hbuf, finalizeOnce_hostSide, digestOut_hostSide]; split <;> rfl
  all_goals rfl

/-- A command neither reads nor writes the host's side of the window. -/
theorem exec_hostSide (v p h r k) (i : Instr) (s : State) :
    exec i (withHostSide v p h r k s) = mapNext (withHostSide v p h r k) (exec i s) := by
  have hphase : (withHostSide v p h r k s).phase = s.phase := rfl
  rw [exec_eq_dispatch, exec_eq_dispatch]
  simp only [dispatchCommand, hphase, effectResult_hostSide]
  split_ifs <;> rfl

/-- Nor does a command value. -/
theorem outcome_hostSide (v p h r k) (w : Word) (s : State) :
    outcome w (withHostSide v p h r k s) = mapNext (withHostSide v p h r k) (outcome w s) := by
  have hphase : (withHostSide v p h r k s).phase = s.phase := rfl
  unfold outcome
  split
  · simp only [rejectCommand, hphase]; split_ifs <;> rfl
  · exact exec_hostSide ..

end Sys2Proof.Machine
end

