-- ==== Sys2Proof/Tests/Slice0.lean ====
section
/-! SUPPORT. Sys2Proof/Tests/Slice0.lean: decoding of values written from the opcode map, one-step tests whose expected
values come from spec/95_test_vectors.md (the vector's name stands above each), and a witness for the hypotheses of
each statement. -/

namespace Sys2Proof.Tests

open Sys2Proof.Machine

set_option maxRecDepth 10000

/-- A field of the state a result leaves. -/
def after {α : Type} (r : Result) (field : State → α) : Option α :=
  match r with
  | .next s => some (field s)
  | .fault _ => none
  | .refused _ => none

/-- A result that leaves the whole state `t` is `.next t`. -/
theorem next_of_after {r : Result} {t : State} (h : after r id = some t) : r = .next t := by
  cases r <;> simp_all [after]

/-- n bytes 0x61. -/
def asBytes (n : Nat) : List Byte := List.replicate n 0x61

/-- A session in ABSORBING with n bytes 0x61 buffered. -/
def absorbing (n : Nat) (din : Word) : State := { State.reset with buf := asBytes n, din := din }

/-- A finalized session with the lanes `l` and the cursor at `pos`. -/
def squeezing (l : Lanes) (pos : Nat) : State :=
  { State.reset with lanes := l, phase := .squeezing, fin := true, sqpos := pos }

/-- A consumed session that holds a Short string (E-1, row DONE). -/
def doneState : State := { State.reset with phase := .done, fin := true, sqpos := 6, outlen := 12 }

/-- Row FAULTED of E-1. -/
def faultedState : State := { State.reset with err := .contract, phase := .faulted }

/-- The host's next event on a state. -/
def withEvent (e : HostEvent) (s : State) : State := { s with host := [e] }

/-- ABSORB 1 in progress with `left` accesses to come. -/
def busyState (left : Nat) : State := { absorbing 0 0x61 with pending := some ⟨0x02000001, left⟩ }

/-- All 25 lanes 0 but one. -/
def oneLane (i : Nat) (v : Word) : Lanes := setLane (Vector.replicate 25 0) i v

/-! ### WellFormed: one ill-formed term for each check (R72) -/

theorem test_wf_absorb_low : (Instr.absorb 0).wellFormed = false := by decide
theorem test_wf_absorb_high : (Instr.absorb 9).wellFormed = false := by decide
theorem test_wf_squeeze_low : (Instr.squeeze 0).wellFormed = false := by decide
theorem test_wf_squeeze_high : (Instr.squeeze 9).wellFormed = false := by decide
theorem test_wf_ldlane_high : (Instr.ldlane 25).wellFormed = false := by decide
theorem test_wf_bounds :
    (Instr.absorb 1).wellFormed = true ∧ (Instr.absorb 8).wellFormed = true ∧
    (Instr.squeeze 1).wellFormed = true ∧ (Instr.squeeze 8).wellFormed = true ∧
    (Instr.ldlane 0).wellFormed = true ∧ (Instr.ldlane 24).wellFormed = true := by decide

/-! ### Decode: w[63:32], OPC, RSV, ARG written out field by field (R70 to R74) -/

theorem test_decode_nop : decode (0#32 ++ 0b00000000#8 ++ 0#16 ++ 0b00000000#8) = .ok .nop := by decide
theorem test_decode_init : decode (0#32 ++ 0b00000001#8 ++ 0#16 ++ 0b00000000#8) = .ok .init := by decide
theorem test_decode_absorb : decode (0#32 ++ 0b00000010#8 ++ 0#16 ++ 0b00000101#8) = .ok (.absorb 5) := by decide
theorem test_decode_finalize : decode (0#32 ++ 0b00000011#8 ++ 0#16 ++ 0b00000000#8) = .ok .finalize := by decide
theorem test_decode_sqbegin : decode (0#32 ++ 0b00000100#8 ++ 0#16 ++ 0b00000000#8) = .ok .sqbegin := by decide
theorem test_decode_squeeze : decode (0#32 ++ 0b00000101#8 ++ 0#16 ++ 0b00000110#8) = .ok (.squeeze 6) := by decide
theorem test_decode_digest :
    decode (0#32 ++ 0b00000110#8 ++ 0#16 ++ 0b00000000#8) = .ok (.digest .standard) ∧
    decode (0#32 ++ 0b00000110#8 ++ 0#16 ++ 0b00000001#8) = .ok (.digest .uuid) ∧
    decode (0#32 ++ 0b00000110#8 ++ 0#16 ++ 0b00000010#8) = .ok (.digest .short) := by decide
theorem test_decode_permute : decode (0#32 ++ 0b00000111#8 ++ 0#16 ++ 0b00000000#8) = .ok .permute := by decide
theorem test_decode_ldlane : decode (0#32 ++ 0b00001000#8 ++ 0#16 ++ 0b00010010#8) = .ok (.ldlane 18) := by decide

/-- The host's two questions on a table row: the decoded command, and the step that runs it first after reset. -/
theorem test_table_word :
    decodeTableWord 64 0x02000008 = some (.absorb 8) ∧
    after (step (State.reset.withFetchWord 64 0x02000008)) statusWord = some 0x800 := by decide

/-- The command value `w` gives STATUS 0x23 from reset. -/
def rejectedAtReset (w : Word) : Bool := decide (after (outcome w State.reset) statusWord = some 0x23)

/-- E-2. -/
theorem test_illegal_words :
    rejectedAtReset 0x02000000 = true ∧ rejectedAtReset 0x02000009 = true ∧ rejectedAtReset 0x09000000 = true ∧
    rejectedAtReset 0x06000003 = true ∧ rejectedAtReset 0x08000019 = true ∧ rejectedAtReset 0x01000100 = true ∧
    rejectedAtReset 0x00000001 = true ∧ rejectedAtReset 0x0000000100000000 = true := by decide

/-- E-3, E-4: ILLEGAL before CONTRACT; FAULTED ignores all but the exact INIT word. -/
theorem test_dispatch_order :
    after (outcome 0x02000000 doneState) statusWord = some 0x0C06002B ∧
    after (outcome 0x01000001 faultedState) statusWord = some 0x13 ∧
    after (outcome 0x01000000 faultedState) statusWord = some 0x0 := by decide

/-! ### The permutation -/

/-- P-1: rotation amounts of rounds 0 and 23, first and last rows. -/
theorem test_rotation_amounts :
    ((List.range 5).map fun x => rotAmount x 0 0) = [1, 12, 23, 34, 45] ∧
    ((List.range 5).map fun x => rotAmount x 4 0) = [29, 40, 51, 62, 9] ∧
    ((List.range 5).map fun x => rotAmount x 0 23) = [44, 55, 2, 13, 24] ∧
    ((List.range 5).map fun x => rotAmount x 4 23) = [8, 19, 30, 41, 52] := by decide

/-- P-6: one round of the state whose lane 0 is 1, step by step. -/
theorem test_round_theta :
    (theta (oneLane 0 1)).toList =
      [1, 1, 0, 0, 2, 0, 1, 0, 0, 2, 0, 1, 0, 0, 2, 0, 1, 0, 0, 2, 0, 1, 0, 0, 2] := by decide +kernel

/-- P-6, after rho and pi with T(0) = 1. -/
theorem test_round_rho_pi :
    (rhoPi 0 (theta (oneLane 0 1))).toList =
      [0x2, 0x0000000800000000, 0, 0, 0x400, 0, 0x20, 0, 0x20000, 0, 0x1000, 0, 0, 0x0008000000000000, 0,
        0x0000400000000000, 0, 0x0400000000000000, 0, 0, 0, 0, 0x10000000, 0, 0x0000010000000000] := by decide +kernel

/-- P-6, the whole round. -/
theorem test_round_whole :
    (permRound 0 (oneLane 0 1)).toList =
      [0x3, 0x0000000800000000, 0x400, 0x2, 0x0000000800000400, 0, 0x20020, 0, 0x20000, 0x20, 0x1000,
        0x0008000000000000, 0, 0x0008000000001000, 0, 0x0400400000000000, 0, 0x0400000000000000,
        0x0000400000000000, 0, 0x10000000, 0, 0x0000010010000000, 0, 0x0000010000000000] := by decide +kernel

/-- P-3, L3-1: PERMUTE of the zero state. -/
theorem test_permute_zero :
    after (exec .permute State.reset) (fun s => (laneAt s.lanes 0, laneAt s.lanes 13, laneAt s.lanes 24, statusWord s)) =
      some (0xB12FA7440F00DC47, 0xF3666637C34619E1, 0xED3DD01D86C72998, 0x0) := by decide +kernel

/-- E-1: PERMUTE in DONE and in FAULTED. -/
theorem test_permute_refused_phases :
    after (exec .permute doneState) statusWord = some 0x0C06001B ∧
    after (exec .permute faultedState) statusWord = some 0x13 := by decide

/-! ### The lane store -/

/-- LS-1. -/
theorem test_ldlane_24 :
    after (exec (.ldlane 24) (absorbing 0 0x0123456789ABCDEF)) (fun s => (laneAt s.lanes 24, laneAt s.lanes 23, statusWord s)) =
      some (0x0123456789ABCDEF, 0, 0) := by decide

/-- E-1: LDLANE in DONE. -/
theorem test_ldlane_done : after (exec (.ldlane 0) doneState) statusWord = some 0x0C06001B := by decide

/-- LS-2: XorBlock of 0x00, 0x01, …, 0x87 into the zero state. -/
theorem test_xor_block :
    let l := xorBlock ((List.range 136).map (BitVec.ofNat 8)) (Vector.replicate 25 0)
    laneAt l 0 = 0x0706050403020100 ∧ laneAt l 16 = 0x8786858483828180 ∧ laneAt l 17 = 0 := by decide +kernel

/-- LS-3, E-1: NOP in every phase. -/
theorem test_nop_every_phase :
    after (exec .nop (absorbing 3 0)) statusWord = some 0x300 ∧
    after (exec .nop (squeezing (Vector.replicate 25 0) 0)) statusWord = some 0x9 ∧
    after (exec .nop doneState) statusWord = some 0x0C06000A ∧
    after (exec .nop faultedState) statusWord = some 0x13 := by decide

/-! ### The sponge -/

/-- L3-3: INIT after a fault; DIN stays. -/
theorem test_init_recovers :
    after (exec .init { faultedState with din := 0x61, lanes := oneLane 3 7 }) (fun s => (statusWord s, s.din, laneAt s.lanes 3)) =
      some (0, 0x61, 0) := by decide

/-- L3-2: ABSORB 3 of DIN = 0x7A7978 buffers x, y, z and gives STATUS 0x300. -/
theorem test_absorb_low_bytes_first :
    after (exec (.absorb 3) (absorbing 0 0x7A7978)) (fun s => (s.buf, statusWord s)) =
      some ([0x78, 0x79, 0x7A], 0x300) := by decide

/-- S-8: ABSORB 8 with 130 bytes buffered. -/
theorem test_absorb_across_block :
    after (exec (.absorb 8) (absorbing 130 0x6262626262626262)) (fun s => (s.buf, laneAt s.lanes 0, statusWord s)) =
      some ([0x62, 0x62], 0xACA748627876442D, 0x200) := by decide +kernel

/-- S-1, S-3, S-4: PadBlock of 0, 134 and 135 bytes. -/
theorem test_pad_block :
    padBlock [] = [0x06] ++ List.replicate 134 0 ++ [0x80] ∧
    padBlock (asBytes 134) = asBytes 134 ++ [0x06, 0x80] ∧
    padBlock (asBytes 135) = asBytes 135 ++ [0x80] := by decide +kernel

/-- L3-5: FINALIZE of the empty message. -/
theorem test_finalize_empty :
    after (exec .finalize State.reset) (fun s => (laneAt s.lanes 0, laneAt s.lanes 16, statusWord s)) =
      some (0x437AD82451732ECF, 0x725CDDBC8449D80E, 0x9) := by decide +kernel

/-- S-10: a second FINALIZE changes nothing. -/
theorem test_finalize_twice :
    after (exec .finalize (squeezing (oneLane 2 5) 7)) id = some (squeezing (oneLane 2 5) 7) := by decide

/-- E-1: SQBEGIN in ABSORBING and in SQUEEZING. -/
theorem test_sqbegin :
    after (exec .sqbegin State.reset) statusWord = some 0x13 ∧
    after (exec .sqbegin (squeezing (Vector.replicate 25 0) 136)) statusWord = some 0x9 := by decide

/-- S-11: the bytes 132 to 135 of the finalized empty message (given lane 16), then the permuted state. The lanes are
those FINALIZE leaves. -/
theorem test_squeeze_across_block :
    after (exec (.squeeze 8) { doFinalize State.reset with sqpos := 132 }) (fun s => (s.dout, statusWord s)) =
      some (0xB0426BFE725CDDBC, 0x40009) := by decide +kernel

/-- R140 on LS-1's lane value: SQUEEZE 3 at SQPOS 130 reads bytes 2, 3, 4 of lane 16 and zeroes the rest of DOUT. -/
theorem test_squeeze_inside_block :
    after (exec (.squeeze 3) (squeezing (oneLane 16 0x0123456789ABCDEF) 130)) (fun s => (s.dout, s.sqpos)) =
      some (0x6789AB, 133) := by decide

/-! ### The formatter -/

/-- F-3: the raw bytes 0x10 to 0x1B as a Uuid string; R32's STATUS for it. -/
theorem test_digest_uuid :
    after (exec (.digest .uuid) (squeezing (setLane (oneLane 0 0x1716151413121110) 1 0x1B1A1918) 40))
        (fun s => (s.outstr.toList.take 33, statusWord s)) =
      some ([0x49, 0x44, 0x4E, 0x34, 0x35, 0x2D, 0x31, 0x30, 0x31, 0x31, 0x31, 0x32, 0x31, 0x33, 0x2D, 0x31, 0x34,
        0x31, 0x35, 0x31, 0x36, 0x31, 0x37, 0x2D, 0x31, 0x38, 0x31, 0x39, 0x31, 0x61, 0x31, 0x62, 0x00],
        0x200C000A) := by decide +kernel

/-- H-3: the Short hash of the empty message is "cf2e73512:4d". -/
theorem test_digest_short_empty :
    after (exec (.digest .short) State.reset) (fun s => (s.outstr.toList.take 13, statusWord s)) =
      some ([0x63, 0x66, 0x32, 0x65, 0x37, 0x33, 0x35, 0x31, 0x32, 0x3A, 0x34, 0x64, 0x00], 0x0C06000A) := by
  decide +kernel

/-- F-1. -/
theorem test_hex_encode : hexEncode [0x10, 0x11, 0xAB] = [0x31, 0x30, 0x31, 0x31, 0x61, 0x62] := by decide

/-- F-6, F-7 (v = 9). -/
theorem test_short_strings :
    formatString .short (hexEncode (List.replicate 6 0xFF)) =
      [0x66, 0x66, 0x66, 0x66, 0x66, 0x66, 0x3A, 0x66, 0x66, 0x66, 0x66, 0x66] ∧
    formatString .short (hexEncode [0x01, 0x23, 0x45, 0x67, 0x89, 0xA9]) =
      [0x30, 0x31, 0x32, 0x33, 0x34, 0x35, 0x36, 0x37, 0x38, 0x39, 0x3A, 0x61] := by decide

/-- V-4: 30 characters are no Uuid string. -/
theorem test_validate_shape : detectFormat (uuidPrefix ++ List.replicate 24 0x30) = none := by decide

/-! ### The window and the BUSY handshake -/

/-- E-5, its second access: the STATUS read sees the old fields with BUSY = 1, then the command completes and BUSYWR is
raised. -/
theorem test_busywr :
    after (step (withEvent (.read 8 0x018) { busyState 1 with viol := true }))
        (fun s => (s.rdata, statusWord s, s.din, s.viol)) = some (0x4, 0x133, 0x61, false) := by decide

/-- E-5, its first access: a DIN write while BUSY = 1 is discarded. -/
theorem test_busy_din_write :
    after (step (withEvent (.write 8 0x008 0x62 0) (busyState 2))) (fun s => (s.din, s.viol, s.busy)) =
      some (0x61, true, true) := by decide

/-- E-7: BUSYWR does not replace CONTRACT. -/
theorem test_busywr_keeps_contract :
    after (step (withEvent (.write 8 0x008 0 0) { State.reset with pending := some ⟨0x04000000, 1⟩ })) statusWord =
      some 0x13 := by decide

/-- RS-3: reset while BUSY = 1. -/
theorem test_reset_abandons :
    after (step (withEvent .reset (busyState 5))) (fun s => (statusWord s, s.din)) = some (0, 0) := by decide

/-- R50, R54, R166: OUT[0] and the first reserved offsets. -/
theorem test_out_window :
    readReg (writeOutstr [0x49, 0x44, 0x4E, 0x34, 0x35, 0x2D, 0x63, 0x39] State.reset) (windowReg 0x200) =
      0x39632D35344E4449 ∧
    windowReg 0x0F8 = .reserved ∧ windowReg 0x1C0 = .lane 24 ∧ windowReg 0x1C8 = .reserved ∧
    windowReg 0x238 = .out 7 ∧ windowReg 0x240 = .reserved := by decide

/-! ### Witnesses: for each statement with hypotheses, values that meet all of them; one for each clause, at the ends of
the clause's range -/

theorem test_witness_RotationMovesBits :
    (0 : Nat) < 64 ∧ (63 : Nat) < 64 ∧ 1 ≤ 1 ∧ (1 : Nat) ≤ 63 ∧ 1 ≤ 63 ∧ (63 : Nat) ≤ 63 := by decide

theorem test_witness_DecodeOfEncode :
    ∀ i ∈ [Instr.nop, .init, .absorb 1, .absorb 8, .finalize, .sqbegin, .squeeze 1, .squeeze 8, .digest .standard,
      .digest .short, .permute, .ldlane 0, .ldlane 24], i.wellFormed = true := by decide

theorem test_witness_EncodeOfDecode : decode 0x08000018 = .ok (.ldlane 24) ∧ decode 0x02000001 = .ok (.absorb 1) := by
  decide

theorem test_witness_IllegalValuesFault :
    illegalValue 0x0000000100000000 ∧ illegalValue 0x00000100 ∧ illegalValue 0x09000000 ∧ illegalValue 0xFF000000 ∧
    illegalValue 0x02000000 ∧ illegalValue 0x05000009 ∧ illegalValue 0x06000003 ∧ illegalValue 0x08000019 ∧
    illegalValue 0x03000001 := by
  refine ⟨?_, ?_, ?_, ?_, ?_, ?_, ?_, ?_, ?_⟩ <;> unfold illegalValue <;> decide

theorem test_witness_ThetaMixesColumnParities : (0 : Nat) < 5 ∧ (4 : Nat) < 5 := by decide

theorem test_witness_RhoPiMovesAndRotates :
    (4 : Nat) < 5 ∧ (0 : Nat) < 5 ∧ (0 : Nat) = 0 ∧ (2 * 4 + 3 * 0) % 5 = 3 := by decide

theorem test_witness_RotationAmountsOfTheSchedule : (4 : Nat) < 5 ∧ (23 : Nat) < 24 := by decide

theorem test_witness_ChiReadsTheSnapshot :
    (∀ x < 5, matAt (Vector.replicate 25 0) x 4 = 0) ∧
    (∀ x < 5, matAt (Vector.replicate 25 (BitVec.allOnes 64)) x 0 = BitVec.allOnes 64) := by decide

theorem test_witness_IotaTouchesOneLane : (0 : Nat) < 25 ∧ (24 : Nat) < 25 := by decide

theorem test_witness_RoundConstantsFollowTheLfsr : (23 : Nat) < 24 := by decide

/-- The other-value clause of each bare encoding: the same opcode with ARG = 1. -/
theorem test_witness_BareEncodings :
    (fieldOpc 0x00000001 = fieldOpc 0x00000000 ∧ (0x00000001 : Word) ≠ 0x00000000) ∧
    (fieldOpc 0x01000001 = fieldOpc 0x01000000 ∧ (0x01000001 : Word) ≠ 0x01000000) ∧
    (fieldOpc 0x03000001 = fieldOpc 0x03000000 ∧ (0x03000001 : Word) ≠ 0x03000000) ∧
    (fieldOpc 0x04000001 = fieldOpc 0x04000000 ∧ (0x04000001 : Word) ≠ 0x04000000) ∧
    (fieldOpc 0x07000001 = fieldOpc 0x07000000 ∧ (0x07000001 : Word) ≠ 0x07000000) := by decide

theorem test_witness_PermuteAppliesPerm :
    (0 : Nat) < 24 ∧ (23 : Nat) < 24 ∧ State.reset.phase = .absorbing ∧ (squeezing (Vector.replicate 25 0) 0).phase = .squeezing ∧
    doneState.phase = .done ∧ faultedState.phase = .faulted := by decide

theorem test_witness_LanesAreLittleEndianBytes : (24 : Nat) < 25 ∧ (7 : Nat) < 8 := by decide

theorem test_witness_XorBlockIsBytewise :
    (asBytes 136).length = 136 ∧ (135 : Nat) < 136 ∧ 136 ≤ 136 ∧ (199 : Nat) < 200 := by decide

theorem test_witness_LdlaneWritesOneLane :
    (0 : Nat) ≤ 24 ∧ (24 : Nat) ≤ 24 ∧ State.reset.phase = .absorbing ∧
    (squeezing (Vector.replicate 25 0) 0).phase = .squeezing ∧ doneState.phase = .done ∧
    faultedState.phase = .faulted := by decide

theorem test_witness_InitStartsASession :
    (0x01000001 : Word) ≠ 0x0000000001000000 ∧ faultedState.phase = .faulted := by decide

theorem test_witness_AbsorbTakesTheLowBytes :
    (1 ≤ 8 ∧ (absorbing 127 0).phase = .absorbing ∧ (absorbing 127 0).buf.length + 8 < 136) ∧
    ((absorbing 135 0).buf.length < 136 ∧ 136 ≤ (absorbing 135 0).buf.length + 1) ∧
    ((absorbing 135 0).buf.length < 136 ∧ 136 ≤ (absorbing 135 0).buf.length + 8) ∧
    ((squeezing (Vector.replicate 25 0) 0).phase = .squeezing ∧ doneState.phase = .done ∧
      faultedState.phase = .faulted) := by decide

theorem test_witness_PadBlockBytes :
    (asBytes 0).length ≤ 134 ∧ (asBytes 134).length ≤ 134 ∧ (asBytes 135).length = 135 := by decide

theorem test_witness_FinalizePadsOnce :
    (absorbing 135 0).phase = .absorbing ∧ (absorbing 135 0).buf.length < 136 ∧
    (squeezing (Vector.replicate 25 0) 136).phase = .squeezing ∧
    (squeezing (Vector.replicate 25 0) 136).buf.length < 136 ∧ doneState.phase = .done ∧
    faultedState.phase = .faulted := by decide

theorem test_witness_SqbeginRestartsTheCall :
    (squeezing (Vector.replicate 25 0) 136).phase = .squeezing ∧ State.reset.phase = .absorbing ∧
    doneState.phase = .done ∧ faultedState.phase = .faulted := by decide

theorem test_witness_SqueezeDeliversTheNextBytes :
    (1 ≤ 8 ∧ (squeezing (Vector.replicate 25 0) 128).phase = .squeezing ∧
      (squeezing (Vector.replicate 25 0) 128).sqpos + 8 ≤ 136) ∧
    ((squeezing (Vector.replicate 25 0) 136).sqpos ≤ 136 ∧ 136 < (squeezing (Vector.replicate 25 0) 136).sqpos + 1) ∧
    (State.reset.phase = .absorbing ∧ doneState.phase = .done ∧ faultedState.phase = .faulted) := by decide

theorem test_witness_DoutHoldsTheSqueezedBytes :
    1 ≤ 3 ∧ 3 ≤ 8 ∧ (squeezing (Vector.replicate 25 0) 134).phase = .squeezing ∧
    (squeezing (Vector.replicate 25 0) 134).sqpos ≤ 136 ∧ (134 + 1 < 136 ∧ ¬ 134 + 2 < 136) ∧ 3 ≤ 7 := by decide

theorem test_witness_DigestFormatsTheFront :
    ((absorbing 135 0).phase = .absorbing ∧ (absorbing 135 0).buf.length < 136) ∧
    ((squeezing (Vector.replicate 25 0) 9).phase = .squeezing ∧ (squeezing (Vector.replicate 25 0) 9).buf.length < 136 ∧
      (squeezing (Vector.replicate 25 0) 9).Inv) ∧
    doneState.phase = .done ∧ faultedState.phase = .faulted := by decide

theorem test_witness_HexEncodeDigits : (0 : Nat) < [0x10#8].length ∧ (5 : Nat) < (List.replicate 6 0#8).length := by decide

theorem test_witness_UuidGroups : (asBytes 12).length = 12 := by decide

theorem test_witness_ShortColonPosition : (asBytes 6).length = 6 := by decide

theorem test_witness_ShapesAreDisjoint :
    (asBytes 32).length = digestLen .standard ∧ (asBytes 12).length = digestLen .uuid ∧
    (asBytes 6).length = digestLen .short := by decide

theorem test_witness_OutWindowShowsTheString :
    (asBytes 64).length ≤ 64 ∧ (63 : Nat) < 64 ∧ (63 : Nat) < (asBytes 64).length ∧
    (asBytes 12).length ≤ 64 ∧ ¬ 12 < (asBytes 12).length := by decide

/-- Both clauses: DIGEST in DONE faults, DIGEST in ABSORBING at the last buffer length does not. -/
theorem test_witness_ContractFaultByPhase :
    (Instr.digest .short).wellFormed = true ∧
    (doneState.buf.length < 136 ∧ doneState.sqpos ≤ 136 ∧ doneState.phase ≠ .faulted ∧ doneState.phase = .done) ∧
    ((absorbing 135 0).buf.length < 136 ∧ (absorbing 135 0).sqpos ≤ 136 ∧ (absorbing 135 0).phase ≠ .faulted ∧
      ¬ (absorbing 135 0).phase = .done) := by decide

theorem test_witness_PhaseTransitionTable :
    (Instr.squeeze 8).wellFormed = true ∧ (squeezing (Vector.replicate 25 0) 136).buf.length < 136 ∧
    (squeezing (Vector.replicate 25 0) 136).sqpos ≤ 136 := by decide

theorem test_witness_FaultedIgnoresAllButInit :
    faultedState.phase = .faulted ∧ (0x01000001 : Word) ≠ 0x0000000001000000 ∧
    (withEvent (.write 8 0x008 5 0) faultedState).busy = false ∧
    (withEvent (.write 8 0x008 5 0) faultedState).host = [.write 8 0x008 5 0] := by decide

theorem test_witness_FaultsArePrecise :
    illegalValue 0x09000000 ∧ ¬ illegalValue 0x04000000 ∧ State.reset.phase ≠ .faulted ∧
    outcome 0x09000000 State.reset = .next { State.reset with err := .illegal, phase := .faulted } ∧
    outcome 0x04000000 State.reset = .next { State.reset with err := .contract, phase := .faulted } := by
  have h1 : illegalValue 0x09000000 ∧ ¬ illegalValue 0x04000000 := by unfold illegalValue; decide
  exact ⟨h1.1, h1.2, by decide, next_of_after (by decide), next_of_after (by decide)⟩

theorem test_witness_OnlyInitReturnsToAbsorbing :
    outcome 0x01000000 faultedState = .next State.reset ∧ State.reset.phase = .absorbing ∧
    faultedState.phase ≠ .absorbing ∧ faultedState.phase = .faulted ∧ State.reset.err ≠ faultedState.err :=
  ⟨next_of_after (by decide), by decide⟩

theorem test_witness_CommandsNeverWriteDin :
    outcome 0x01000000 (absorbing 0 0x61) = .next (absorbing 0 0x61) := next_of_after (by decide)

/-- INIT changes DOUT and OUTLEN. -/
theorem test_witness_ResultRegisterWriters :
    exec .init { doneState with dout := 5 } = .next State.reset ∧ State.reset.dout ≠ 5 ∧
    State.reset.outlen ≠ doneState.outlen := ⟨next_of_after (by decide), by decide⟩

theorem test_witness_LaneStoreWriters :
    exec (.ldlane 24) (absorbing 0 7) = .next { absorbing 0 7 with lanes := oneLane 24 7 } ∧
    oneLane 24 7 ≠ (absorbing 0 7).lanes := ⟨next_of_after (by decide), by decide⟩

theorem test_witness_StatusFields :
    { squeezing (Vector.replicate 25 0) 136 with outlen := 64, buf := asBytes 135 }.InRange ∧ State.reset.InRange := by decide

/-- A read of the aligned offset `off`, the host's next event while nothing is in progress. -/
def readsAt (off : Word) : Bool :=
  decide ((withEvent (.read 8 off) State.reset).busy = false ∧
    (withEvent (.read 8 off) State.reset).host = [.read 8 off] ∧ off.toNat < 0x400 ∧ off.toNat % 8 = 0)

/-- Every clause, at the ends of its range. -/
theorem test_witness_WindowReads :
    readsAt 0x000 ∧ readsAt 0x008 ∧ readsAt 0x010 ∧ readsAt 0x018 ∧ readsAt 0x020 ∧ readsAt 0x0F8 ∧ readsAt 0x100 ∧
    readsAt 0x1C0 ∧ readsAt 0x1C8 ∧ readsAt 0x1F8 ∧ readsAt 0x200 ∧ readsAt 0x238 ∧ readsAt 0x240 ∧
    readsAt 0x3F8 := by decide

/-- A write of 5 to the aligned offset `off`, not CMD, the host's next event while nothing is in progress. -/
def writesAt (off : Word) : Bool :=
  decide ((withEvent (.write 8 off 5 0) State.reset).busy = false ∧
    (withEvent (.write 8 off 5 0) State.reset).host = [.write 8 off 5 0] ∧ off.toNat < 0x400 ∧ off.toNat % 8 = 0 ∧
    off ≠ 0x000)

theorem test_witness_WindowWrites : writesAt 0x008 ∧ writesAt 0x010 ∧ writesAt 0x018 ∧ writesAt 0x3F8 := by decide

theorem test_witness_BadAccessesAreRefused :
    (withEvent (.read 4 0x008) State.reset).host = [.read 4 0x008] ∧ (4 : Nat) ≠ 8 ∧
    (0x400 ≤ (0x400 : Word).toNat) ∧ ((0x3FF : Word).toNat < 0x400 ∧ (0x3FF : Word).toNat % 8 ≠ 0) ∧
    (withEvent (.write 8 0x3FF 5 0) (busyState 2)).host = [.write 8 0x3FF 5 0] := by decide

theorem test_witness_StepRunsTheDecodedCommand :
    (withEvent (.write 8 0x000 0x03000000 0) State.reset).busy = false ∧
    (withEvent (.write 8 0x000 0x03000000 0) State.reset).host = [.write 8 0x000 0x03000000 0] ∧
    decode 0x03000000 = .ok .finalize := by decide

/-- The illegal value of E-2 as a CMD write, from reset and in FAULTED. -/
theorem test_witness_StepRunsTheDecodedCommand_illegal :
    (withEvent (.write 8 0x000 0x09000000 0) State.reset).busy = false ∧ illegalValue 0x09000000 ∧
    State.reset.phase ≠ .faulted ∧ (withEvent (.write 8 0x000 0x09000000 0) faultedState).busy = false ∧
    faultedState.phase = .faulted :=
  ⟨by decide, by unfold illegalValue; decide, by decide, by decide, by decide⟩

/-- E-2, E-4: a step on the CMD write of an illegal value. -/
theorem test_step_illegal :
    after (step (withEvent (.write 8 0x000 0x09000000 0) State.reset)) statusWord = some 0x23 ∧
    after (step (withEvent (.write 8 0x000 0x09000000 0) faultedState)) statusWord = some 0x13 := by decide

theorem test_witness_AcceptedCommandWaits :
    (withEvent (.write 8 0x000 0x09000000 1) State.reset).busy = false ∧ 0 < 1 ∧
    (withEvent (.write 8 0x000 0x09000000 1) State.reset).host = [.write 8 0x000 0x09000000 1] := by decide

/-- The event `e`, the host's next while two accesses of a busy period are left. -/
def busyEvent (e : HostEvent) : Bool :=
  decide ((withEvent e (busyState 2)).pending = some ⟨0x02000001, 2⟩ ∧ (2 : Nat) ≤ 2 ∧
    (withEvent e (busyState 2)).host = [e] ∧ e.accepted = true)

/-- Every clause, at the ends of its range, with exactly two accesses left. -/
theorem test_witness_BusyReadsSeeTheOldStatus :
    busyEvent (.read 8 0x000) ∧ busyEvent (.read 8 0x008) ∧ busyEvent (.read 8 0x010) ∧ busyEvent (.read 8 0x018) ∧
    busyEvent (.read 8 0x020) ∧ busyEvent (.read 8 0x0F8) ∧ busyEvent (.read 8 0x100) ∧ busyEvent (.read 8 0x1C0) ∧
    busyEvent (.read 8 0x1C8) ∧ busyEvent (.read 8 0x1F8) ∧ busyEvent (.read 8 0x200) ∧ busyEvent (.read 8 0x238) ∧
    busyEvent (.read 8 0x240) ∧ busyEvent (.read 8 0x3F8) := by decide

theorem test_witness_BusyWritesAreDiscarded :
    busyEvent (.write 8 0x000 5 0) ∧ busyEvent (.write 8 0x008 5 0) ∧ busyEvent (.write 8 0x010 5 0) ∧
    busyEvent (.write 8 0x3F8 5 0) := by decide

/-- The event `e`, the host's next while one access of a busy period is left, meets the hypotheses of
LastAccessCompletes on the state and the event. -/
def lastEvent (e : HostEvent) (v : Bool) : Bool :=
  let s := { withEvent e (busyState 1) with viol := v }
  decide (s.pending = some ⟨0x02000001, 1⟩ ∧ s.host = [e] ∧ e.accepted = true)

/-- Every kind of last access, with VIOL clear and set. -/
theorem test_witness_LastAccessCompletes_accesses :
    lastEvent (.read 8 0x000) false ∧ lastEvent (.read 8 0x008) true ∧ lastEvent (.read 8 0x010) false ∧
    lastEvent (.read 8 0x018) true ∧ lastEvent (.read 8 0x100) false ∧ lastEvent (.read 8 0x238) true ∧
    lastEvent (.read 8 0x3F8) false ∧ lastEvent (.write 8 0x000 5 0) false ∧ lastEvent (.write 8 0x008 5 0) true ∧
    lastEvent (.write 8 0x010 5 0) false := by decide

/-- A read of LANE[0], a DIN read and a CMD write as last accesses of ABSORB 1, which ends in ABSORBING. -/
theorem test_witness_LastAccessCompletes :
    (outcome 0x02000001 (afterBusyAccess (.read 8 0x100) [] (busyState 1)) =
      .next { busyState 1 with rdata := Config.busyRead 0, busyReads := 1, buf := [0x61] }) ∧
    (outcome 0x02000001 (afterBusyAccess (.read 8 0x008) [] (busyState 1)) =
      .next { busyState 1 with rdata := 0x61, buf := [0x61] }) ∧
    (busyState 1).viol = false ∧ (HostEvent.read 8 0x008).writesCmdOrDin = false ∧
    (outcome 0x02000001 (afterBusyAccess (.write 8 0x000 0x01000000 0) [] (busyState 1)) =
      .next { busyState 1 with viol := true, buf := [0x61] }) ∧
    (HostEvent.write 8 0x000 0x01000000 0).writesCmdOrDin = true ∧ (busyState 1).phase ≠ .faulted :=
  ⟨rfl, next_of_after (by decide), by decide, by decide, next_of_after (by decide), by decide, by decide⟩

/-- SQBEGIN in ABSORBING faults by itself, whatever the last access is (R205). -/
theorem test_witness_LastAccessCompletes_fault :
    outcome 0x04000000 (afterBusyAccess (.write 8 0x008 5 0) [] (busyState 1)) =
      .next { busyState 1 with viol := true, err := .contract, phase := .faulted } := next_of_after (by decide)

/-- A busy period of two accesses, one of them a DIN write. -/
theorem test_witness_BusyPeriodIsAtomic :
    let accesses : List HostEvent := [.write 8 0x008 0x62 0, .read 8 0x100]
    let s : State := { absorbing 0 0x61 with host := .write 8 0x000 0x02000001 accesses.length :: (accesses ++ []) }
    s.busy = false ∧ s.viol = false ∧ accesses ≠ [] ∧ (∀ e ∈ accesses, e.accepted = true) ∧
    outcome 0x02000001 { s with host := [] } = .next (absorbing 1 0x61) ∧
    accesses.any HostEvent.writesCmdOrDin = true ∧ (absorbing 1 0x61).phase ≠ .faulted :=
  ⟨by decide, by decide, by decide, by decide, next_of_after (by decide), by decide, by decide⟩

theorem test_witness_PolledCommandIsTheCommandLevel :
    let s : State := { absorbing 0 0x61 with host := (HostLine.cmd (.absorb 1)).events 3 ++ [] }
    (Instr.absorb 1).wellFormed = true ∧ s.busy = false ∧ s.viol = false ∧
    exec (.absorb 1) { s with host := [] } = .next (absorbing 1 0x61) :=
  ⟨by decide, by decide, by decide, next_of_after (by decide)⟩

theorem test_witness_ResetAbandonsAndClears :
    (withEvent .reset (busyState 3)).host = [.reset] ∧ (withEvent .reset doneState).busy = false ∧
    (withEvent .reset doneState).viol = false ∧
    exec .init { withEvent .reset doneState with host := [] } = .next State.reset :=
  ⟨by decide, by decide, by decide, next_of_after (by decide)⟩

theorem test_witness_IdleEngineKeepsItsState : (busyState 2).host = [] := by decide

theorem test_witness_StepKeepsTheInvariant :
    (withEvent (.write 8 0x000 0x04000000 0) State.reset).Inv ∧
    step (withEvent (.write 8 0x000 0x04000000 0) State.reset) = .next faultedState :=
  ⟨by decide, next_of_after (by decide)⟩

theorem test_witness_NothingIsStuckUnderTheInvariant :
    (withEvent (.read 8 0x3F8) (busyState 1)).Inv ∧ (withEvent (.read 8 0x3F8) (busyState 1)).host = [.read 8 0x3F8] ∧
    (HostEvent.read 8 0x3F8).accepted = true ∧
    (withEvent .reset (busyState 1)).Inv ∧ (withEvent .reset (busyState 1)).host = [.reset] :=
  ⟨by decide, by decide, by decide, by decide, by decide⟩

theorem test_witness_ChunksAbsorbTheSequence :
    (∀ c ∈ [asBytes 8, asBytes 1], 1 ≤ c.length ∧ c.length ≤ 8) ∧ (absorbing 135 0).phase = .absorbing ∧
    (absorbing 135 0).buf.length < 136 ∧
    asBytes 1 ≠ [] ∧ (squeezing (Vector.replicate 25 0) 0).phase ≠ .absorbing ∧ doneState.phase ≠ .absorbing ∧
    faultedState.phase ≠ .absorbing := by decide

/-- Both clauses, at 1 byte and at the first byte of a second block. -/
theorem test_witness_SqueezeCallReturnsTheStream :
    1 ≤ 1 ∧ 1 ≤ 137 ∧ (squeezing (Vector.replicate 25 0) 9).phase = .squeezing ∧
    (squeezing (Vector.replicate 25 0) 9).busy = false ∧
    State.reset.phase ≠ .squeezing ∧ State.reset.busy = false ∧
    doneState.phase ≠ .squeezing ∧ doneState.busy = false ∧
    faultedState.phase ≠ .squeezing ∧ faultedState.busy = false := by decide

/-- Each clause; the lines of the second and third are a NOP from DONE. -/
theorem test_witness_HashIsTheClosedForm :
    faultedState.busy = false ∧
    (∃ r, runLines [.cmd .nop] doneState = .next r ∧ r.final.phase = .done) ∧
    (∀ fmt, HostLine.cmd (.digest fmt) ∉ [HostLine.cmd .nop]) ∧
    (∃ r, runLines [.cmd .nop] faultedState = .next r ∧ r.final.phase = .faulted) ∧
    doneState.phase = .done ∧ faultedState.phase = .faulted :=
  ⟨by decide, ⟨_, rfl, rfl⟩, fun fmt => by simp, ⟨_, rfl, rfl⟩, by decide, by decide⟩

/-! ### UPDATE after finalization (R182), the end of a run (R189) -/

/-- The field of a run's result, where there is one. -/
def result {α β : Type} (o : HostResult α) (field : α → β) : Option β :=
  match o with
  | .next x => some (field x)
  | .fault _ => none
  | .refused _ => none

/-- R182: UPDATE of nine bytes in SQUEEZING has failed with CONTRACT. -/
theorem test_update_after_finalize :
    result (runLines (updateLines (asBytes 9)) (squeezing (oneLane 3 7) 5)) (fun r => (verdict r.seen, statusWord r.final)) =
      some (.failed 1, 0x5001B) := by decide

/-- R189 on the bits: BUSY = 0 with PHASE = DONE ends a run that has issued DIGEST, PHASE = FAULTED fails it whatever BUSY;
DONE with BUSY = 1, and DONE without a DIGEST, end nothing. -/
theorem test_end_of_run_status :
    verdict [.issued (.digest .short), .status 0xA] = .ended ∧
    verdict [.issued (.digest .short), .status 0xE] = .unfinished ∧
    verdict [.issued .nop, .status 0xA] = .unfinished ∧
    verdict [.status 0xA, .issued (.digest .short), .status 0x9] = .unfinished ∧
    statusFailed 0x13 = true ∧ statusFailed 0x17 = true ∧
    verdict [.issued .nop, .status 0xA, .issued (.digest .short), .status 0x13] = .failed 1 := by decide

/-- From DONE: NOP alone has no end, and NOP, then HEXDIGEST has failed with CONTRACT and observes no hash, although OUTSTR
still holds the former string. -/
theorem test_failed_run_has_no_observation :
    result (runLines [.cmd .nop] doneState) (fun r => verdict r.seen) = some .unfinished ∧
    result (hexdigestAfter [.cmd .nop] .short doneState) (fun x => (x.1, verdict x.2.seen, x.2.final.outlen)) =
      some (none, .failed 1, 12) := by decide

end Sys2Proof.Tests
end

section
/-! PROOFS. Rotation (R9) and the addresses of the register window (R7, R50, R51). -/

namespace Sys2Proof.Machine

/-! ### Rotation -/

/-- R9 of the model is Lean's rotation with the amount reduced mod 64. -/
theorem rotl_eq_shifts (v : Word) (n : Nat) : rotl v n = v <<< (n % 64) ||| v >>> (64 - n % 64) :=
  BitVec.rotateLeft_def

/-- Bit i of v arrives at bit (i + n) mod 64 (R9). -/
theorem rotl_getLsbD (v : Word) (n : Nat) {i : Nat} (hi : i < 64) :
    (rotl v n).getLsbD ((i + n) % 64) = v.getLsbD i := by
  rw [rotl, BitVec.getLsbD_rotateLeft]
  by_cases hwrap : i + n % 64 < 64
  · have hdst : (i + n) % 64 = i + n % 64 := by omega
    have hge : ¬ i + n % 64 < n % 64 := by omega
    simp [hdst, hge, hwrap]
  · have hdst : (i + n) % 64 = i + n % 64 - 64 := by omega
    have hlt : i + n % 64 - 64 < n % 64 := by omega
    have hsrc : 64 - n % 64 + (i + n % 64 - 64) = i := by omega
    simp [hdst, hlt, hsrc]

/-- Settles O1: the rotation's bits, its two shifts, and the reduction of the amount. -/
theorem rotationMovesBits : Obligations.RotationMovesBits := by
  intro v n
  refine ⟨fun i hi => rotl_getLsbD v n hi, fun _ hn => ?_, ?_, BitVec.rotateLeft_mod_eq_rotateLeft.symm⟩
  · rw [rotl_eq_shifts, Nat.mod_eq_of_lt (by omega)]
  · rw [rotl_eq_shifts, Nat.zero_mod, BitVec.shiftLeft_zero, BitVec.ushiftRight_eq_zero (Nat.le_refl 64),
      BitVec.or_zero]

/-! ### The window's addresses -/

/-- IDN45_BASE is 64-bit aligned, whatever the platform chose (R7). -/
theorem idn45Base_aligned : Config.idn45Base.toNat % 8 = 0 := by
  rw [Config.idn45Base, BitVec.toNat_append, BitVec.toNat_ofNat, Nat.shiftLeft_eq]
  simp

/-- The offsets R51 accepts, listed. -/
theorem accepted_offset_iff (off : Word) :
    (off.toNat < 0x400 ∧ off.toNat % 8 = 0) ↔ ∃ k < 128, off = BitVec.ofNat 64 (8 * k) := by
  constructor
  · rintro ⟨hlt, hal⟩
    refine ⟨off.toNat / 8, by omega, BitVec.eq_of_toNat_eq ?_⟩
    rw [BitVec.toNat_ofNat]
    omega
  · rintro ⟨k, hk, rfl⟩
    rw [BitVec.toNat_ofNat]
    omega

/-- R51 accepts the aligned 64-bit accesses inside the window, and no other. -/
theorem accessRefusal_eq_none_iff (off : Word) :
    accessRefusal 8 off = none ↔ off.toNat < 0x400 ∧ off.toNat % 8 = 0 := by
  refine ⟨fun h => ?_, fun ⟨hlt, hal⟩ => accessRefusal_aligned hlt hal⟩
  unfold accessRefusal at h
  split_ifs at h with hwidth hwindow halign
  exact ⟨by simpa using hwindow, not_not.1 halign⟩

/-- Settles O42: an accepted address is the base plus an accepted offset, the subtraction undone modulo 2^64. -/
theorem windowSitsAtItsBase : Obligations.WindowSitsAtItsBase := by
  refine ⟨idn45Base_aligned, fun addr => ?_⟩
  rw [accessRefusal_eq_none_iff, accepted_offset_iff]
  simp only [offsetOf, sub_eq_iff_eq_add']

end Sys2Proof.Machine
end

section
/-! PROOFS. The decoder by the four fields of a command value (R70 to R75). -/

namespace Sys2Proof.Machine

/-- The opcode map gives a well-formed command back from its own OPC and ARG (R74). -/
theorem instrOfFields_opc_arg {i : Instr} (hw : i.wellFormed = true) :
    instrOfFields i.opc.toNat i.arg.toNat = .ok i := by
  cases i with
  | absorb n =>
    have hn : 1 ≤ n ∧ n ≤ 8 := of_decide_eq_true hw
    simp [instrOfFields, Instr.opc, Instr.arg, Nat.mod_eq_of_lt (show n < 256 by omega)]
  | squeeze n =>
    have hn : 1 ≤ n ∧ n ≤ 8 := of_decide_eq_true hw
    simp [instrOfFields, Instr.opc, Instr.arg, Nat.mod_eq_of_lt (show n < 256 by omega)]
  | ldlane idx =>
    have hn : idx ≤ 24 := of_decide_eq_true hw
    simp [instrOfFields, Instr.opc, Instr.arg, Nat.mod_eq_of_lt (show idx < 256 by omega)]
  | digest fmt => cases fmt <;> rfl
  | _ => rfl

/-- Decoding is a left inverse of encoding on the well-formed commands (R70 to R74). -/
theorem decode_encode {i : Instr} (hw : i.wellFormed = true) : decode (encode i) = .ok i := by
  obtain ⟨hhigh, hrsv, hopc, harg⟩ : Laws.EncodeFields.Statement i := Laws.EncodeFields.fields _ _
  simp [decode, hhigh, hrsv, hopc, harg, instrOfFields_opc_arg hw, hw]

theorem outcome_encode {i : Instr} (hw : i.wellFormed = true) (s : State) : outcome (encode i) s = exec i s := by
  simp only [outcome, decode_encode hw]

theorem fieldHigh_eq_zero_iff (w : Word) : fieldHigh w = 0 ↔ w.toNat / 2 ^ 32 = 0 := by
  have := w.isLt
  rw [fieldHigh, ← BitVec.toNat_inj, BitVec.extractLsb'_toNat, Nat.shiftRight_eq_div_pow]
  change w.toNat / 2 ^ 32 % 2 ^ 32 = 0 ↔ _
  omega

theorem fieldRsv_eq_zero_iff (w : Word) : fieldRsv w = 0 ↔ w.toNat / 2 ^ 8 % 2 ^ 16 = 0 := by
  rw [fieldRsv, ← BitVec.toNat_inj, BitVec.extractLsb'_toNat, Nat.shiftRight_eq_div_pow]
  rfl

theorem fieldOpc_toNat (w : Word) : (fieldOpc w).toNat = w.toNat / 2 ^ 24 % 2 ^ 8 := by
  rw [fieldOpc, BitVec.extractLsb'_toNat, Nat.shiftRight_eq_div_pow]

theorem fieldArg_toNat (w : Word) : (fieldArg w).toNat = w.toNat % 2 ^ 8 := by
  rw [fieldArg, BitVec.extractLsb'_toNat, Nat.shiftRight_zero]

/-- A row without operand is taken with ARG = 0 only. -/
theorem bareRow_eq_ok {arg : Nat} {i j : Instr}
    (h : (if arg = 0 then Except.ok j else .error DecodeError.argument) = .ok i) : i = j ∧ arg = 0 := by
  split_ifs at h with ha
  exact ⟨(Except.ok.inj h).symm, ha⟩

/-- A format is read from its own number only (R161). -/
theorem arg_of_formatOfArg {arg : Nat} {fmt : Format} (h : formatOfArg arg = some fmt) : arg = fmt.arg.toNat := by
  unfold formatOfArg at h
  split at h <;> cases h <;> rfl

/-- The opcode map reads a well-formed command from its own OPC and ARG only (R74). -/
theorem opc_arg_of_instrOfFields {opc arg : Nat} {i : Instr} (h : instrOfFields opc arg = .ok i)
    (hw : i.wellFormed = true) : opc = i.opc.toNat ∧ arg = i.arg.toNat := by
  have hoperand (hlt : arg < 256) : arg = (BitVec.ofNat 8 arg).toNat := (Nat.mod_eq_of_lt hlt).symm
  unfold instrOfFields at h
  split at h
  case h_3 | h_6 =>
    cases h
    have hn : 1 ≤ arg ∧ arg ≤ 8 := of_decide_eq_true hw
    exact ⟨rfl, hoperand (by omega)⟩
  case h_7 =>
    split at h
    case h_2 => cases h
    next fmt hfmt =>
      cases h
      exact ⟨rfl, arg_of_formatOfArg hfmt⟩
  case h_9 =>
    cases h
    have hn : arg ≤ 24 := of_decide_eq_true hw
    exact ⟨rfl, hoperand (by omega)⟩
  case h_10 => cases h
  all_goals
    obtain ⟨rfl, rfl⟩ := bareRow_eq_ok h
    exact ⟨rfl, rfl⟩

/-- All that a decoded value can be: the four fields of a well-formed command (R70 to R74). -/
theorem fields_of_decode {w : Word} {i : Instr} (h : decode w = .ok i) :
    i.wellFormed = true ∧ fieldHigh w = 0 ∧ fieldRsv w = 0 ∧ fieldOpc w = i.opc ∧ fieldArg w = i.arg := by
  unfold decode at h
  split_ifs at h with hhigh hrsv
  split at h
  case h_1 => cases h
  next j hj =>
    split_ifs at h with hw
    cases h
    obtain ⟨hopc, harg⟩ := opc_arg_of_instrOfFields hj hw
    exact ⟨hw, not_not.1 hhigh, not_not.1 hrsv, BitVec.eq_of_toNat_eq hopc, BitVec.eq_of_toNat_eq harg⟩

/-- A decoded value is none of R75 (a) to (g): its fields are those of a well-formed command. -/
theorem not_illegalValue_of_decode {w : Word} {i : Instr} (h : decode w = .ok i) : ¬ illegalValue w := by
  obtain ⟨hw, hhigh, hrsv, hopc, harg⟩ := fields_of_decode h
  rw [fieldHigh_eq_zero_iff] at hhigh
  rw [fieldRsv_eq_zero_iff] at hrsv
  rw [← BitVec.toNat_inj, fieldOpc_toNat] at hopc
  rw [← BitVec.toNat_inj, fieldArg_toNat] at harg
  simp only [illegalValue, hhigh, hrsv, hopc, harg]
  cases i with
  | absorb n =>
    have hn : 1 ≤ n ∧ n ≤ 8 := of_decide_eq_true hw
    simp [Instr.opc, Instr.arg]; omega
  | squeeze n =>
    have hn : 1 ≤ n ∧ n ≤ 8 := of_decide_eq_true hw
    simp [Instr.opc, Instr.arg]; omega
  | ldlane idx =>
    have hn : idx ≤ 24 := of_decide_eq_true hw
    simp [Instr.opc, Instr.arg]; omega
  | digest fmt => cases fmt <;> decide
  | _ => decide

/-- An illegal value is rejected by the decoder (R75). -/
theorem decode_illegalValue {w : Word} (h : illegalValue w) : ∃ e, decode w = .error e := by
  cases hd : decode w with
  | error e => exact ⟨e, rfl⟩
  | ok i => exact absurd h (not_illegalValue_of_decode hd)

theorem outcome_illegalValue {w : Word} (h : illegalValue w) (s : State) : outcome w s = .next (rejectCommand s) := by
  obtain ⟨e, he⟩ := decode_illegalValue h
  simp only [outcome, he]

end Sys2Proof.Machine
end

section
/-! PROOFS. The step of a CMD write and of a STATUS read, and a command from its write to the end of POLL (R77,
R205, R223). -/

namespace Sys2Proof.Machine

/-! ### Command issue -/

/-- The step of an accepted write while BUSY = 0 (R55). -/
theorem step_write_idle {s : State} {off v : Word} {n : Nat} {rest : List HostEvent} (hb : s.busy = false)
    (hh : s.host = .write 8 off v n :: rest) (ha : accessRefusal 8 off = none) :
    step s = hostWrite (windowReg off.toNat) v n { s with host := rest } := by
  have hb' : ({ s with host := rest } : State).busy = false := hb
  simp only [step, hh, hostEvent, ha, hb', Bool.false_eq_true, if_false]

/-- A CMD write while BUSY = 0 issues the value (R55, R223). -/
theorem hostWrite_cmd_idle {s : State} (hb : s.busy = false) (w : Word) (n : Nat) :
    hostWrite .cmd w n s = issueCommand w n s := by
  simp only [hostWrite, hb, Bool.false_eq_true, if_false]

/-- The step of a CMD write while BUSY = 0 issues the value (R223). -/
theorem step_write_cmd {s : State} {w : Word} {n : Nat} {rest : List HostEvent} (hb : s.busy = false)
    (hh : s.host = .write 8 0x000 w n :: rest) : step s = issueCommand w n { s with host := rest } := by
  rw [step_write_idle hb hh rfl]
  exact hostWrite_cmd_idle (s := { s with host := rest }) hb w n

/-- The same, at any host side. -/
theorem step_write_cmd_hostSide (v host r k) (w : Word) (n : Nat) (s : State) :
    step (withHostSide v none (.write 8 0x000 w n :: host) r k s) = issueCommand w n (withHostSide v none host r k s) :=
  step_write_cmd rfl rfl

/-- The step of a STATUS read counts the access, with STATUS as the value read. -/
theorem step_read_status {s : State} {rest : List HostEvent} (hh : s.host = .read 8 0x018 :: rest) :
    step s = countAccess { s with host := rest, rdata := statusWord s } := by
  rw [step_read hh rfl, hostRead_stated (.inr rfl)]
  rfl

/-- No access is counted while no command is in progress. -/
theorem countAccess_idle {s : State} (hp : s.pending = none) : countAccess s = .next s := by
  simp only [countAccess, hp]

/-- The last access of a busy period completes the command (R223). -/
theorem countAccess_last {s : State} {p : Pending} (hp : s.pending = some p) (hl : p.left ≤ 1) :
    countAccess s = completeCommand p.cmd s := by
  simp only [countAccess, hp, hl, if_true]

theorem issueCommand_zero (w : Word) (s : State) : issueCommand w 0 s = outcome w s := rfl

theorem issueCommand_pos {n : Nat} (hn : 0 < n) (w : Word) (s : State) :
    issueCommand w n s = .next { s with pending := some ⟨w, n⟩ } := by
  simp [issueCommand, Nat.ne_of_gt hn]

/-- Settles O43: the step issues the value, which at latency 0 is its outcome, and an illegal value's is a rejection. -/
theorem stepRunsTheDecodedCommand : Obligations.StepRunsTheDecodedCommand := by
  intro s w rest hb hh
  have hstep : step s = outcome w { s with host := rest } := step_write_cmd hb hh
  refine ⟨hstep, fun i hi => ?_, fun hill hp => ?_, fun hill hp => ?_⟩
  · simp only [hstep, outcome, hi]
  · rw [hstep, outcome_illegalValue hill, rejectCommand, if_neg hp]
    rfl
  · rw [hstep, outcome_illegalValue hill, rejectCommand, if_pos hp]

/-- Settles O44: the write issues the value, and a latency above 0 puts it in progress. -/
theorem acceptedCommandWaits : Obligations.AcceptedCommandWaits := by
  intro s w n rest hb hn hh
  rw [step_write_cmd hb hh, issueCommand_pos hn]

/-! ### The host's side along a busy period (R205, R223) -/

@[simp] theorem withHostSide_viol (v p h r k) (s : State) : (withHostSide v p h r k s).viol = v := rfl
@[simp] theorem withHostSide_pending (v p h r k) (s : State) : (withHostSide v p h r k s).pending = p := rfl
@[simp] theorem withHostSide_host (v p h r k) (s : State) : (withHostSide v p h r k s).host = h := rfl
@[simp] theorem withHostSide_rdata (v p h r k) (s : State) : (withHostSide v p h r k s).rdata = r := rfl
@[simp] theorem withHostSide_busyReads (v p h r k) (s : State) : (withHostSide v p h r k s).busyReads = k := rfl

/-- A state is any state with the same engine and its own host side. -/
theorem withHostSide_self (s : State) : withHostSide s.viol s.pending s.host s.rdata s.busyReads s = s := rfl

/-- An answered command leaves the host's side of the window as it was. -/
theorem exec_next_keeps_hostSide {i : Instr} {s t : State} (h : exec i s = .next t) :
    t = withHostSide s.viol s.pending s.host s.rdata s.busyReads t := by
  have hmap := exec_hostSide s.viol s.pending s.host s.rdata s.busyReads i s
  rw [withHostSide_self, h] at hmap
  exact Host.Outcome.next.inj hmap

/-- A command value that answers does so whatever the host's side holds. -/
theorem outcome_next_hostSide {w : Word} {s t : State} (h : outcome w s = .next t) (v p host r k) :
    outcome w (withHostSide v p host r k s) = .next (withHostSide v p host r k t) := by
  rw [outcome_hostSide, h]
  rfl

/-- The completion of a command with VIOL = 0 leaves its outcome, with BUSY = 0 (R205, R223). -/
theorem completeCommand_unviolated {w : Word} {s t : State} (h : outcome w s = .next t) (p host r k) :
    completeCommand w (withHostSide false p host r k s) = .next (withHostSide false none host r k t) := by
  simp only [completeCommand, outcome_next_hostSide h, settleViol, withHostSide_viol, Bool.false_eq_true, false_and,
    if_false]
  rfl

/-- One read of POLL (R77). -/
abbrev poll : HostEvent := .read 8 0x018

/-- One STATUS read of POLL, at any host side (R77). -/
theorem step_poll (v p host r k) (s : State) :
    step (withHostSide v p (poll :: host) r k s) =
      countAccess (withHostSide v p host (statusWord (withHostSide v p (poll :: host) r k s)) k s) :=
  step_read_status rfl

/-- The accesses left in a busy period, each a STATUS read, bring the command's outcome (R223). -/
theorem stepN_polls_complete {w : Word} {s t : State} (h : outcome w s = .next t) (rest : List HostEvent) (k n : Nat)
    (r : Word) : ∃ r',
      stepN (n + 1) (withHostSide false (some ⟨w, n + 1⟩) (List.replicate (n + 1) poll ++ rest) r k s) =
        .next (withHostSide false none rest r' k t) := by
  induction n generalizing r with
  | zero =>
    refine ⟨statusWord (withHostSide false (some ⟨w, 1⟩) (poll :: rest) r k s), ?_⟩
    rw [stepN, List.replicate_one, List.singleton_append, step_poll, countAccess_last rfl (Nat.le_refl 1),
      completeCommand_unviolated h]
    rfl
  | succ n ih =>
    obtain ⟨r', hr'⟩ := ih (statusWord
      (withHostSide false (some ⟨w, n + 2⟩) (List.replicate (n + 2) poll ++ rest) r k s))
    refine ⟨r', ?_⟩
    rw [stepN, List.replicate_succ, List.cons_append, step_poll, countAccess_more rfl (by simp)]
    exact hr'

/-- A command and as many STATUS reads as its latency bring its outcome (R223). -/
theorem stepN_issue_complete {w : Word} {s t : State} (h : outcome w s = .next t) (rest : List HostEvent) (k n : Nat)
    (r : Word) : ∃ r',
      stepN (n + 1) (withHostSide false none (.write 8 0x000 w n :: (List.replicate n poll ++ rest)) r k s) =
        .next (withHostSide false none rest r' k t) := by
  rw [stepN, step_write_cmd_hostSide]
  cases n with
  | zero =>
    rw [issueCommand_zero, List.replicate_zero, List.nil_append, outcome_next_hostSide h]
    exact ⟨r, rfl⟩
  | succ n =>
    rw [issueCommand_pos n.succ_pos]
    exact stepN_polls_complete h rest k n r

/-- The last STATUS read of POLL shows the idle state it reads and changes the value read only (R53, R77). -/
theorem stepN_last_poll {t : State} {rest : List HostEvent} {r₀ : Word} {k : Nat}
    (ht : t = withHostSide false none rest r₀ k t) (r : Word) :
    stepN 1 (withHostSide false none (poll :: rest) r k t) = .next { t with rdata := statusWord t } := by
  rw [stepN, step_poll, countAccess_idle rfl]
  conv_rhs => rw [ht]
  rfl

/-- The accesses of a command line: the write, the reads its latency counts, and the one that sees BUSY = 0 (R77). -/
theorem events_cmd (i : Instr) (n : Nat) :
    (HostLine.cmd i).events n = .write 8 0x000 (encode i) n :: (List.replicate n poll ++ [poll]) := by
  rw [← List.replicate_succ']
  rfl

/-- Settles O49: the accesses up to the latency complete the command, and the last STATUS read shows the idle state. -/
theorem polledCommandIsTheCommandLevel : Obligations.PolledCommandIsTheCommandLevel := by
  intro s t i n rest hw hb hv hh hexec
  have hp : s.pending = none := by simpa [State.busy] using hb
  have ht : t = withHostSide false none rest s.rdata s.busyReads t := by
    simpa only [hv, hp] using exec_next_keeps_hostSide hexec
  have hs : withHostSide false none (.write 8 0x000 (encode i) n :: (List.replicate n poll ++ poll :: rest)) s.rdata
      s.busyReads { s with host := rest } = s := by
    rw [events_cmd, List.cons_append, List.append_assoc, List.singleton_append] at hh
    rw [← hh, ← hv, ← hp]
    rfl
  obtain ⟨r, hr⟩ := stepN_issue_complete ((outcome_encode hw _).trans hexec) (poll :: rest) s.busyReads n s.rdata
  rw [hs] at hr
  constructor
  · rw [stepN_add (n + 1) 1, hr]
    exact stepN_last_poll ht r
  · rw [ht]
    rfl

end Sys2Proof.Machine
end

section
/-! PROOFS. Which commands write which part of the state (R22, R29 to R31, R34): the frame of each effect, and
of an answered command. -/

namespace Sys2Proof.Machine

/-! ### The frame of each effect -/

theorem absorbBytes_din (bs : List Byte) (s : State) : (absorbBytes bs s).din = s.din := by rw [absorbBytes_eq]

theorem absorbBytes_dout (bs : List Byte) (s : State) : (absorbBytes bs s).dout = s.dout := by rw [absorbBytes_eq]

theorem absorbBytes_outstr (bs : List Byte) (s : State) : (absorbBytes bs s).outstr = s.outstr := by rw [absorbBytes_eq]

theorem absorbBytes_outlen (bs : List Byte) (s : State) : (absorbBytes bs s).outlen = s.outlen := by rw [absorbBytes_eq]

theorem finalizeOnce_din (s : State) : (finalizeOnce s).din = s.din := by rw [finalizeOnce_eq]

theorem finalizeOnce_dout (s : State) : (finalizeOnce s).dout = s.dout := by rw [finalizeOnce_eq]

theorem finalizeOnce_outstr (s : State) : (finalizeOnce s).outstr = s.outstr := by rw [finalizeOnce_eq]

theorem finalizeOnce_outlen (s : State) : (finalizeOnce s).outlen = s.outlen := by rw [finalizeOnce_eq]

/-- The finalize step of FINALIZE and DIGEST runs in ABSORBING (R136). -/
theorem finalizeOnce_absorbing {s : State} (hp : s.phase = .absorbing) : finalizeOnce s = doFinalize s := if_pos hp

/-- In every other phase it does nothing (R137). -/
theorem finalizeOnce_finalized {s : State} (hp : s.phase ≠ .absorbing) : finalizeOnce s = s := if_neg hp

/-- SQUEEZE writes the lane store, the cursor and DOUT (R140). -/
theorem squeezeToDout_eq (n : Nat) (s : State) :
    squeezeToDout n s = { s with
      lanes := (squeezeBytes n s).2.lanes, sqpos := (squeezeBytes n s).2.sqpos,
      dout := doutOf (squeezeBytes n s).1 } := by
  rw [squeezeToDout, squeezeBytes_eq]

/-- The string DIGEST makes of a finalized lane store (R160). -/
def digestString (fmt : Format) (l : Lanes) : List Byte :=
  formatString fmt (hexEncode ((rateBytes l).take (digestLen fmt)))

/-- After the finalize step DIGEST reads the lane store and writes the cursor, the string and PHASE (R160). -/
theorem digestOut_eq (fmt : Format) (s : State) :
    digestOut fmt s = { s with
      sqpos := digestLen fmt, outstr := outstrOf (digestString fmt s.lanes),
      outlen := (digestString fmt s.lanes).length, phase := .done } := by
  rw [digestOut, squeezeBytes_front]
  rfl

/-! ### The frame of a command -/

theorem effectState_absorb (n : Nat) (s : State) :
    effectState (.absorb n) s = absorbBytes (dinBytes n s.din) s := rfl

theorem effectState_digest (fmt : Format) (s : State) :
    effectState (.digest fmt) s = digestOut fmt (finalizeOnce s) := rfl

/-- A part of the state that no fault writes is unchanged by an answered command, or the command ran its effect (R200,
R201). -/
theorem exec_next_keeps_or_runs {α : Type} (part : State → α)
    (hfault : ∀ code s, part (raiseFault code s) = part s) {i : Instr} {s t : State} (h : exec i s = .next t) :
    part t = part s ∨ t = effectState i s := by
  rcases exec_next_cases h with ⟨-, -, rfl⟩ | ⟨-, -, rfl⟩ | ⟨-, -, -, rfl⟩ | ⟨-, -, rfl⟩
  · exact .inl rfl
  · exact .inl (hfault _ _)
  · exact .inl (hfault _ _)
  · exact .inr rfl

theorem effectState_din (i : Instr) (s : State) : (effectState i s).din = s.din := by
  cases i with
  | absorb n => exact absorbBytes_din _ s
  | finalize => exact finalizeOnce_din s
  | squeeze n => rw [effectState, squeezeToDout_eq]
  | digest fmt => rw [effectState_digest, digestOut_eq, finalizeOnce_din]
  | _ => rfl

theorem effectState_dout {i : Instr} (hinit : i ≠ .init) (hsqueeze : ∀ n, i ≠ .squeeze n) (s : State) :
    (effectState i s).dout = s.dout := by
  cases i with
  | init => exact absurd rfl hinit
  | squeeze n => exact absurd rfl (hsqueeze n)
  | absorb n => exact absorbBytes_dout _ s
  | finalize => exact finalizeOnce_dout s
  | digest fmt => rw [effectState_digest, digestOut_eq, finalizeOnce_dout]
  | _ => rfl

theorem effectState_outstr_outlen {i : Instr} (hinit : i ≠ .init) (hdigest : ∀ fmt, i ≠ .digest fmt) (s : State) :
    (effectState i s).outstr = s.outstr ∧ (effectState i s).outlen = s.outlen := by
  cases i with
  | init => exact absurd rfl hinit
  | digest fmt => exact absurd rfl (hdigest fmt)
  | absorb n => exact ⟨absorbBytes_outstr _ s, absorbBytes_outlen _ s⟩
  | finalize => exact ⟨finalizeOnce_outstr s, finalizeOnce_outlen s⟩
  | squeeze n => rw [effectState, squeezeToDout_eq]; exact ⟨rfl, rfl⟩
  | _ => exact ⟨rfl, rfl⟩

/-- The finalize step writes the lane store in ABSORBING only (R137). -/
theorem absorbing_of_finalizeOnce_lanes_ne {s : State} (h : (finalizeOnce s).lanes ≠ s.lanes) :
    s.phase = .absorbing := by
  by_contra hp
  exact h (by rw [finalizeOnce_finalized hp])

/-- No answered command writes DIN (R29). -/
theorem exec_next_din {i : Instr} {s t : State} (h : exec i s = .next t) : t.din = s.din := by
  rcases exec_next_keeps_or_runs State.din (fun _ _ => rfl) h with hdin | rfl
  · exact hdin
  · exact effectState_din i s

/-- An answered command value leaves the host's side of the window as it was. -/
theorem outcome_next_keeps_hostSide {w : Word} {s t : State} (h : outcome w s = .next t) :
    t = withHostSide s.viol s.pending s.host s.rdata s.busyReads t := by
  rcases outcome_next_cases h with ⟨i, -, hexec⟩ | ⟨-, rfl⟩
  · exact exec_next_keeps_hostSide hexec
  · unfold rejectCommand
    split_ifs <;> rfl

theorem outcome_next_din {w : Word} {s t : State} (h : outcome w s = .next t) : t.din = s.din := by
  rcases outcome_next_cases h with ⟨i, -, hexec⟩ | ⟨-, rfl⟩
  · exact exec_next_din hexec
  · unfold rejectCommand
    split_ifs <;> rfl

/-- Settles O35: no effect and no fault writes DIN, and a command does not look at the host's side. -/
theorem commandsNeverWriteDin : Obligations.CommandsNeverWriteDin := by
  intro w s t h
  refine ⟨outcome_next_din h, ?_⟩
  rw [outcome_next_keeps_hostSide h]
  exact ⟨rfl, rfl, rfl, rfl, rfl⟩

/-- Settles O36: a fault writes no result register, and every other effect leaves them. -/
theorem resultRegisterWriters : Obligations.ResultRegisterWriters := by
  intro i s t h
  constructor
  · intro hne
    by_contra hother
    rw [not_or, not_exists] at hother
    obtain ⟨hinit, hsqueeze⟩ := hother
    rcases exec_next_keeps_or_runs State.dout (fun _ _ => rfl) h with hdout | rfl
    · exact hne hdout
    · exact hne (effectState_dout hinit hsqueeze s)
  · intro hne
    by_contra hother
    rw [not_or, not_exists] at hother
    obtain ⟨hinit, hdigest⟩ := hother
    obtain ⟨houtstr, houtlen⟩ : t.outstr = s.outstr ∧ t.outlen = s.outlen := by
      rcases exec_next_keeps_or_runs (fun u => (u.outstr, u.outlen)) (fun _ _ => rfl) h with hout | rfl
      · exact Prod.mk.inj hout
      · exact effectState_outstr_outlen hinit hdigest s
    exact hne.elim (· houtstr) (· houtlen)

/-- Settles O37: bytes short of a block are only buffered (R132), a squeeze inside the block only moves the cursor
(R138), and the finalize step is the only write of FINALIZE and DIGEST to the lane store. -/
theorem laneStoreWriters : Obligations.LaneStoreWriters := by
  intro i s t h hne
  obtain rfl := (exec_next_keeps_or_runs State.lanes (fun _ _ => rfl) h).resolve_left hne
  cases i with
  | nop => exact absurd rfl hne
  | sqbegin => exact absurd rfl hne
  | init => exact .inl rfl
  | permute => exact .inr (.inl rfl)
  | ldlane idx => exact .inr (.inr (.inl ⟨idx, rfl⟩))
  | absorb n =>
    refine .inr (.inr (.inr (.inl ⟨n, rfl, ?_⟩)))
    by_contra hshort
    have hwithin : s.buf.length + (dinBytes n s.din).length < 136 := by rw [dinBytes_length]; omega
    exact hne (by rw [effectState_absorb, absorbBytes_within hwithin])
  | finalize => exact .inr (.inr (.inr (.inr (.inl ⟨rfl, absorbing_of_finalizeOnce_lanes_ne hne⟩))))
  | digest fmt =>
    have hlanes : (effectState (.digest fmt) s).lanes = (finalizeOnce s).lanes := by
      rw [effectState_digest, digestOut_eq]
    rw [hlanes] at hne
    exact .inr (.inr (.inr (.inr (.inr (.inl ⟨fmt, rfl, absorbing_of_finalizeOnce_lanes_ne hne⟩)))))
  | squeeze n =>
    refine .inr (.inr (.inr (.inr (.inr (.inr ⟨n, rfl, ?_⟩)))))
    by_contra hinside
    exact hne (congrArg (fun r => r.2.lanes) (squeezeBytes_within (Nat.le_of_not_lt hinside)))

end Sys2Proof.Machine
end

section
/-! PROOFS. The state as the host reads it: lanes as bytes (R21, R56), the OUT window (R54, R166), STATUS (R32). -/

namespace Sys2Proof.Machine

/-- State byte 8i + k is byte k of lane i (R21). -/
theorem stByte_of_lane (l : Lanes) (i : Nat) {k : Nat} (hk : k < 8) : stByte l (8 * i + k) = byteOf (laneAt l i) k := by
  have hlane : (8 * i + k) / 8 = i := by omega
  have hbyte : (8 * i + k) % 8 = k := by omega
  rw [stByte, hlane, hbyte]

/-- Settles O13: the eight state bytes are the lane's own bytes, and packing those gives the lane back. -/
theorem lanesAreLittleEndianBytes : Obligations.LanesAreLittleEndianBytes := by
  intro l i _
  have hbytes : (List.range 8).map (fun k => stByte l (8 * i + k)) = (List.range 8).map (byteOf (laneAt l i)) :=
    List.map_congr_left fun k hk => stByte_of_lane l i (List.mem_range.1 hk)
  refine ⟨?_, fun k hk => stByte_of_lane l i hk⟩
  rw [hbytes, packLE_bytes]

/-- Settles O29: the OUT window shows OUTSTR byte by byte, and OUTSTR holds the string, zero after it. -/
theorem outWindowShowsTheString : Obligations.OutWindowShowsTheString := by
  intro str s _
  refine ⟨rfl, fun c hc => ?_⟩
  have hchar : (readReg (writeOutstr str s) (.out (c / 8))).extractLsb' (8 * (c % 8)) 8 = str.getD c 0 :=
    (byteOf_outWord (writeOutstr str s) c).trans (outstrOf_getD str hc)
  rw [hchar]
  split_ifs with hin
  · rfl
  · exact List.getD_eq_default _ _ (Nat.le_of_not_lt hin)

/-- STATUS above its low byte: the three counters under zero bits (R32). -/
theorem statusWord_high (s : State) (n k : Nat) :
    (statusWord s).extractLsb' (8 + n) k =
      (0#33 ++ BitVec.ofNat 7 s.outlen ++ BitVec.ofNat 8 s.sqpos ++ BitVec.ofNat 8 s.buf.length).extractLsb' n k := by
  unfold statusWord
  repeat rw [BitVec.extractLsb'_append_eq_of_le (by omega)]
  congr 1
  omega

theorem statusBufcnt_statusWord (s : State) : (statusWord s).extractLsb' 8 8 = BitVec.ofNat 8 s.buf.length := by
  rw [statusWord_high s 0 8]
  exact BitVec.extractLsb'_append_eq_right

theorem statusSqpos_statusWord (s : State) : (statusWord s).extractLsb' 16 8 = BitVec.ofNat 8 s.sqpos := by
  rw [statusWord_high s 8 8, BitVec.extractLsb'_append_eq_of_le (by decide)]
  exact BitVec.extractLsb'_append_eq_right

theorem statusOutlen_statusWord (s : State) : (statusWord s).extractLsb' 24 7 = BitVec.ofNat 7 s.outlen := by
  rw [statusWord_high s 16 7]
  repeat rw [BitVec.extractLsb'_append_eq_of_le (by decide)]
  exact BitVec.extractLsb'_append_eq_right

theorem statusReserved_statusWord (s : State) : (statusWord s).extractLsb' 31 33 = 0 := by
  rw [statusWord_high s 23 33]
  repeat rw [BitVec.extractLsb'_append_eq_of_le (by decide)]
  exact BitVec.extractLsb'_eq_self

theorem statusPhase_statusWord (s : State) : (statusWord s).extractLsb' 0 2 = s.phase.code :=
  BitVec.extractLsb'_append_eq_right

theorem statusBusy_statusWord (s : State) : (statusWord s).getLsbD 2 = s.busy := by
  simp only [statusWord, BitVec.getLsbD_append, Nat.reduceLT, Nat.reduceSub, if_false, if_true, BitVec.getLsbD_ofBool,
    decide_true, Bool.true_and]

theorem statusFin_statusWord (s : State) : (statusWord s).getLsbD 3 = s.fin := by
  simp only [statusWord, BitVec.getLsbD_append, Nat.reduceLT, Nat.reduceSub, if_false, if_true, BitVec.getLsbD_ofBool,
    decide_true, Bool.true_and]

/-- Settles O38: each field stands at its bits, and the counters in range fit their fields. -/
theorem statusFields : Obligations.StatusFields := by
  refine ⟨fun s hrange => ?_, by decide, by decide⟩
  obtain ⟨hbuf, hsqpos, houtlen⟩ := hrange
  rw [statusBufcnt_statusWord, statusSqpos_statusWord, statusOutlen_statusWord]
  exact ⟨statusPhase_statusWord s, statusBusy_statusWord s, statusFin_statusWord s, statusErr_statusWord s,
    Nat.mod_eq_of_lt (by omega), Nat.mod_eq_of_lt (by omega), Nat.mod_eq_of_lt (by omega),
    statusReserved_statusWord s⟩

end Sys2Proof.Machine
end

section
/-! PROOFS. The invariant of every run (R24 to R34, R142): it holds at reset, and each effect, each part of a host event
and so each step keeps it. -/

namespace Sys2Proof.Machine

/-! ### Fresh sessions and faults -/

/-- The invariant of the session's registers: all of `State.Inv` but the BUSY handshake (R24 to R31, R142). -/
abbrev State.SessionInv (s : State) : Prop :=
  s.InRange ∧ s.StringPadded ∧ s.FlagsAgree ∧ s.SessionAgrees

theorem inv_iff (s : State) : s.Inv ↔ s.SessionInv ∧ s.BusyAgrees := by simp only [and_assoc]

theorem outstr_zero (c : Nat) : (Vector.replicate 64 (0 : Byte)).toList.getD c 0 = 0 := by
  rw [Vector.toList_replicate, List.getD_eq_getElem?_getD, List.getElem?_replicate]
  split_ifs <;> rfl

/-- INIT leaves a fresh session (R131). -/
theorem sessionInv_newSession (s : State) : (newSession s).SessionInv := by
  refine ⟨⟨Nat.zero_le _, Nat.zero_le _, .inl rfl⟩, fun c _ _ => outstr_zero c, ?_, ?_⟩
  · simp [State.FlagsAgree]
  · simp [State.SessionAgrees]

/-- Reset leaves a fresh session, the same as INIT's in every register the invariant names (R37, R221). -/
theorem inv_resetEngine (s : State) : (resetEngine s).Inv :=
  (inv_iff _).2 ⟨sessionInv_newSession State.reset, by simp [State.BusyAgrees]⟩

/-- Settles O53: the reset state is what reset makes of itself. -/
theorem invariantAtReset : Obligations.InvariantAtReset := inv_resetEngine State.reset

/-- Settles O51: the lanes and OUTSTR are zero at every index, and each other value is the one of R37. -/
theorem resetValues : Obligations.ResetValues :=
  ⟨fun i _ => laneAt_zero i, rfl, rfl, rfl, rfl, rfl, rfl, rfl, fun c _ => outstr_zero c, rfl, rfl, rfl, by decide⟩

/-- A fault leaves every register of the session but ERR and PHASE, so what holds of finalized and fresh ones stays true
(R201). -/
theorem sessionInv_raiseFault {code : ErrCode} {s : State} (hc : code ≠ .none) (h : s.SessionInv) :
    (raiseFault code s).SessionInv := by
  obtain ⟨hrange, hpadded, -, hfresh, hempty, -, -⟩ := h
  refine ⟨hrange, hpadded, ?_, hfresh, hempty, ?_⟩
  · simp [State.FlagsAgree, hc]
  · simp

/-! ### Each effect keeps the invariant of the session -/

/-- Absorbing bytes keeps the buffer short of a block, in a session that is still open (R142). -/
theorem sessionInv_absorbBytes {s : State} (hp : s.phase = .absorbing) (h : s.SessionInv) (bs : List Byte) :
    (absorbBytes bs s).SessionInv := by
  obtain ⟨⟨hbuf, hsqpos, houtlen⟩, hpadded, hflags, hfresh, -, hopen, hclosed⟩ := h
  have hfin : s.fin = false := hflags.1 hp
  have hshort : (absorbBytes bs s).buf.length < 136 := absorbBytes_buf_lt (Nat.lt_succ_of_le hbuf) bs
  rw [absorbBytes_eq]
  refine ⟨⟨Nat.le_of_lt_succ hshort, hsqpos, houtlen⟩, hpadded, hflags, hfresh, ?_, hopen, hclosed⟩
  simp [hfin]

/-- DoFinalize empties the buffer and sets FIN with PHASE = SQUEEZING (R136). -/
theorem sessionInv_doFinalize {s : State} (hp : s.phase = .absorbing) (h : s.SessionInv) :
    (doFinalize s).SessionInv := by
  obtain ⟨⟨-, -, houtlen⟩, hpadded, ⟨hopen, -, -, herr⟩, hfresh, -, -, -⟩ := h
  have hnone : s.err = .none := herr.2 (by simp [hp])
  have hzero : s.outlen = 0 := (hfresh (hopen hp)).2.2
  refine ⟨⟨Nat.zero_le _, Nat.zero_le _, houtlen⟩, hpadded, ?_, ?_⟩
  · simp [State.FlagsAgree, hnone]
  · simp [State.SessionAgrees, hzero]

theorem sessionInv_finalizeOnce {s : State} (h : s.SessionInv) : (finalizeOnce s).SessionInv := by
  by_cases hp : s.phase = .absorbing
  · rw [finalizeOnce_absorbing hp]
    exact sessionInv_doFinalize hp h
  · rwa [finalizeOnce_finalized hp]

/-- In SQUEEZING the lane store, the cursor within the block and DOUT are free (R27, R139, R140). -/
theorem sessionInv_squeezed {s : State} (hp : s.phase = .squeezing) (h : s.SessionInv) (l : Lanes) {pos : Nat}
    (hpos : pos ≤ 136) (dout : Word) :
    ({ s with lanes := l, sqpos := pos, dout := dout } : State).SessionInv := by
  obtain ⟨⟨hbuf, -, houtlen⟩, hpadded, hflags, -, hempty, hopen, hclosed⟩ := h
  have hfin : s.fin = true := hflags.2.1 hp
  refine ⟨⟨hbuf, hpos, houtlen⟩, hpadded, hflags, ?_, hempty, hopen, hclosed⟩
  simp [hfin]

theorem sessionInv_squeezeToDout {s : State} (hp : s.phase = .squeezing) (h : s.SessionInv) (n : Nat) :
    (squeezeToDout n s).SessionInv := by
  have ⟨⟨_, hsqpos, _⟩, _⟩ := h
  rw [squeezeToDout_eq]
  exact sessionInv_squeezed hp h _ (squeezeBytes_sqpos_le hsqpos n) _

/-- Two characters a byte (R162). -/
theorem hexEncode_length (raw : List Byte) : (hexEncode raw).length = 2 * raw.length := by
  induction raw with
  | nil => rfl
  | cons b bs ih => simp [hexEncode_cons, ih]; omega

/-- The length of each format's string (R163 to R165). -/
def stringLen : Format → Nat
  | .standard => 64
  | .uuid => 32
  | .short => 12

theorem formatString_length {fmt : Format} {raw : List Byte} (h : raw.length = digestLen fmt) :
    (formatString fmt (hexEncode raw)).length = stringLen fmt := by
  have hhex := hexEncode_length raw
  cases fmt <;> simp only [h, digestLen] at hhex
  · exact hhex
  · simp [formatString, formatUuid, uuidPrefix, hhex, stringLen]
  · simp [formatString, formatShort, hhex, stringLen]
    omega

theorem digestString_length (fmt : Format) (l : Lanes) : (digestString fmt l).length = stringLen fmt := by
  apply formatString_length
  rw [List.length_take, rateBytes_length, Nat.min_eq_left (digestLen_le fmt)]

theorem outstrOf_padded (str : List Byte) :
    ∀ c < 64, str.length ≤ c → (outstrOf str).toList.getD c 0 = 0 := by
  intro c hc hlen
  rw [outstrOf_getD str hc, List.getD_eq_default _ _ hlen]

/-- DIGEST of a finalized session leaves a padded string of one of the three lengths, with PHASE = DONE (R160, R166). -/
theorem sessionInv_digestOut {s : State} (hp : s.phase = .squeezing) (h : s.SessionInv) (fmt : Format) :
    (digestOut fmt s).SessionInv := by
  obtain ⟨⟨hbuf, -, -⟩, -, ⟨-, hsqz, -, herr⟩, -, hempty, -, -⟩ := h
  have hfin : s.fin = true := hsqz hp
  have hnone : s.err = .none := herr.2 (by simp [hp])
  have hlen := digestString_length fmt s.lanes
  rw [digestOut_eq]
  refine ⟨⟨hbuf, digestLen_le fmt, ?_⟩, outstrOf_padded _, ?_, ?_, hempty, ?_, ?_⟩
  · cases fmt <;> simp [hlen, stringLen]
  · simp [State.FlagsAgree, hfin, hnone]
  · simp [hfin]
  · simp
  · cases fmt <;> simp [hlen, stringLen]

/-! ### Commands -/

theorem legalIn_absorb_iff (n : Nat) (p : Phase) : legalIn (.absorb n) p = true ↔ p = .absorbing := by
  cases p <;> simp [legalIn]

theorem legalIn_sqbegin_iff (p : Phase) : legalIn .sqbegin p = true ↔ p = .squeezing := by cases p <;> simp [legalIn]

theorem legalIn_squeeze_iff (n : Nat) (p : Phase) : legalIn (.squeeze n) p = true ↔ p = .squeezing := by
  cases p <;> simp [legalIn]

theorem legalIn_digest_iff (fmt : Format) (p : Phase) :
    legalIn (.digest fmt) p = true ↔ p = .absorbing ∨ p = .squeezing := by cases p <;> simp [legalIn]

/-- Where DIGEST is legal its finalize step ends in SQUEEZING (R160). -/
theorem finalizeOnce_phase {s : State} (hp : s.phase = .absorbing ∨ s.phase = .squeezing) :
    (finalizeOnce s).phase = .squeezing := by
  rcases hp with hp | hp
  · rw [finalizeOnce_absorbing hp, doFinalize_phase]
  · rwa [finalizeOnce_finalized (by simp [hp])]

/-- Each effect, in the phases its command is legal in, keeps the invariant of the session. -/
theorem sessionInv_effectState {i : Instr} {s : State} (hl : legalIn i s.phase = true) (h : s.SessionInv) :
    (effectState i s).SessionInv := by
  cases i with
  | nop => exact h
  | init => exact sessionInv_newSession s
  | absorb n => exact sessionInv_absorbBytes ((legalIn_absorb_iff n _).1 hl) h _
  | finalize => exact sessionInv_finalizeOnce h
  | sqbegin => exact sessionInv_squeezed ((legalIn_sqbegin_iff _).1 hl) h s.lanes (Nat.zero_le _) s.dout
  | squeeze n => exact sessionInv_squeezeToDout ((legalIn_squeeze_iff n _).1 hl) h n
  | digest fmt =>
    have hp := finalizeOnce_phase ((legalIn_digest_iff fmt _).1 hl)
    exact sessionInv_digestOut hp (sessionInv_finalizeOnce h) fmt
  | permute => exact h
  | ldlane idx => exact h

theorem sessionInv_exec {i : Instr} {s t : State} (h : s.SessionInv) (hexec : exec i s = .next t) : t.SessionInv := by
  rcases exec_next_cases hexec with ⟨-, -, rfl⟩ | ⟨-, -, rfl⟩ | ⟨-, -, -, rfl⟩ | ⟨-, hl, rfl⟩
  · exact h
  · exact sessionInv_raiseFault (by decide) h
  · exact sessionInv_raiseFault (by decide) h
  · exact sessionInv_effectState hl h

theorem sessionInv_rejectCommand {s : State} (h : s.SessionInv) : (rejectCommand s).SessionInv := by
  unfold rejectCommand
  split_ifs
  · exact h
  · exact sessionInv_raiseFault (by decide) h

theorem sessionInv_outcome {w : Word} {s t : State} (h : s.SessionInv) (hout : outcome w s = .next t) :
    t.SessionInv := by
  rcases outcome_next_cases hout with ⟨i, -, hexec⟩ | ⟨-, rfl⟩
  · exact sessionInv_exec h hexec
  · exact sessionInv_rejectCommand h

/-- A command value leaves VIOL and the command in progress, so the whole invariant is kept. -/
theorem inv_outcome {w : Word} {s t : State} (h : s.Inv) (hout : outcome w s = .next t) : t.Inv := by
  obtain ⟨hsession, hbusy⟩ := (inv_iff s).1 h
  refine (inv_iff t).2 ⟨sessionInv_outcome hsession hout, ?_⟩
  rw [outcome_next_keeps_hostSide hout]
  exact hbusy

/-! ### Host events -/

/-- The VIOL check ends the busy period, so nothing of the handshake is left to hold (R205). -/
theorem inv_settleViol {s : State} (h : s.SessionInv) : (settleViol s).Inv := by
  unfold settleViol
  split_ifs
  · exact (inv_iff _).2 ⟨sessionInv_raiseFault (by decide) h, by simp [State.BusyAgrees]⟩
  · exact (inv_iff _).2 ⟨h, by simp [State.BusyAgrees]⟩

/-- What an answered completion is: the outcome, then the VIOL check (R205). -/
theorem completeCommand_next {w : Word} {s t : State} (h : completeCommand w s = .next t) :
    ∃ u, outcome w s = .next u ∧ t = settleViol u := by
  unfold completeCommand at h
  split at h
  next u hu =>
    cases h
    exact ⟨u, hu, rfl⟩
  all_goals cases h

/-- An access counted while BUSY = 1 completes the command or leaves at least one access to come (R223). -/
theorem inv_countAccess {s t : State} (h : s.Inv) (hcount : countAccess s = .next t) : t.Inv := by
  obtain ⟨hsession, hviol, hleft⟩ := (inv_iff s).1 h
  cases hp : s.pending with
  | none =>
    rw [countAccess_idle hp] at hcount
    cases hcount
    exact h
  | some p =>
    rcases Nat.lt_or_ge 1 p.left with hmore | hlast
    · rw [countAccess_more hp hmore] at hcount
      cases hcount
      refine (inv_iff _).2 ⟨hsession, fun _ => rfl, fun q hq => ?_⟩
      cases hq
      exact Nat.le_sub_of_add_le hmore
    · rw [countAccess_last hp hlast] at hcount
      obtain ⟨u, hu, rfl⟩ := completeCommand_next hcount
      exact inv_settleViol (sessionInv_outcome hsession hu)

/-- A read changes what the host last read and the draw counter only (R53, R57). -/
theorem inv_hostRead {s : State} (h : s.Inv) (r : WindowReg) : (hostRead r s).Inv := by
  unfold hostRead
  split_ifs <;> exact h

/-- A command put in progress has accesses left, and VIOL was 0 while none was (R34, R223). -/
theorem inv_issueCommand {s t : State} {w : Word} {n : Nat} (h : s.Inv) (hissue : issueCommand w n s = .next t) :
    t.Inv := by
  rcases Nat.eq_zero_or_pos n with rfl | hn
  · exact inv_outcome h hissue
  · rw [issueCommand_pos hn] at hissue
    cases hissue
    obtain ⟨hsession, -, -⟩ := (inv_iff s).1 h
    refine (inv_iff _).2 ⟨hsession, fun _ => rfl, fun p hp => ?_⟩
    cases hp
    exact hn

/-- VIOL is set only while BUSY = 1 (R205). -/
theorem inv_violated {s : State} (h : s.Inv) (hb : s.busy = true) : ({ s with viol := true } : State).Inv := by
  obtain ⟨hsession, -, hleft⟩ := (inv_iff s).1 h
  exact (inv_iff _).2 ⟨hsession, fun _ => hb, hleft⟩

/-- All that an answered write can be: ignored, a violation while BUSY = 1, a DIN write or a command issue (R55,
R205). -/
theorem hostWrite_next_cases {r : WindowReg} {v : Word} {n : Nat} {s t : State} (h : hostWrite r v n s = .next t) :
    t = s ∨ (s.busy = true ∧ t = { s with viol := true }) ∨ (s.busy = false ∧ t = { s with din := v }) ∨
    (s.busy = false ∧ issueCommand v n s = .next t) := by
  cases r with
  | cmd =>
    simp only [hostWrite] at h
    split_ifs at h with hb
    · cases h
      exact .inr (.inl ⟨hb, rfl⟩)
    · exact .inr (.inr (.inr ⟨eq_false_of_ne_true hb, h⟩))
  | din =>
    simp only [hostWrite] at h
    split_ifs at h with hb
    · cases h
      exact .inr (.inl ⟨hb, rfl⟩)
    · cases h
      exact .inr (.inr (.inl ⟨eq_false_of_ne_true hb, rfl⟩))
  | _ =>
    cases h
    exact .inl rfl

theorem inv_hostWrite {r : WindowReg} {v : Word} {n : Nat} {s t : State} (h : s.Inv)
    (hwrite : hostWrite r v n s = .next t) : t.Inv := by
  rcases hostWrite_next_cases hwrite with rfl | ⟨hb, rfl⟩ | ⟨-, rfl⟩ | ⟨-, hissue⟩
  · exact h
  · exact inv_violated h hb
  · exact h
  · exact inv_issueCommand h hissue

/-- All that an answered host event can be: a reset, a counted read, a write while BUSY = 0, or a counted write while
BUSY = 1. -/
theorem hostEvent_next_cases {e : HostEvent} {s t : State} (h : hostEvent e s = .next t) :
    t = resetEngine s ∨ (∃ r, countAccess (hostRead r s) = .next t) ∨
    (∃ r v n, s.busy = false ∧ hostWrite r v n s = .next t) ∨
    (∃ r v n u, s.busy = true ∧ hostWrite r v n s = .next u ∧ countAccess u = .next t) := by
  cases e with
  | reset =>
    cases h
    exact .inl rfl
  | read width off =>
    simp only [hostEvent] at h
    split at h
    · cases h
    · exact .inr (.inl ⟨_, h⟩)
  | write width off v n =>
    simp only [hostEvent] at h
    split at h
    · cases h
    · cases hb : s.busy with
      | false =>
        simp only [hb, Bool.false_eq_true, if_false] at h
        exact .inr (.inr (.inl ⟨_, v, n, rfl, h⟩))
      | true =>
        simp only [hb, if_true] at h
        split at h
        next u hu => exact .inr (.inr (.inr ⟨_, v, n, u, rfl, hu, h⟩))
        all_goals cases h

theorem inv_hostEvent {e : HostEvent} {s t : State} (h : s.Inv) (hevent : hostEvent e s = .next t) : t.Inv := by
  rcases hostEvent_next_cases hevent with
    rfl | ⟨r, hread⟩ | ⟨r, v, n, -, hwrite⟩ | ⟨r, v, n, u, -, hwrite, hcount⟩
  · exact inv_resetEngine s
  · exact inv_countAccess (inv_hostRead h r) hread
  · exact inv_hostWrite h hwrite
  · exact inv_countAccess (inv_hostWrite h hwrite) hcount

/-- Settles O54: a step is the next host event, which keeps the invariant, or changes nothing. -/
theorem stepKeepsTheInvariant : Obligations.StepKeepsTheInvariant := by
  intro s t h hstep
  unfold step at hstep
  split at hstep
  · cases hstep
    exact h
  next e rest hhost => exact inv_hostEvent (s := { s with host := rest }) h hstep

end Sys2Proof.Machine
end

section
/-! PROOFS. One access of the window, while BUSY = 0 and while BUSY = 1 (R50 to R57, R205), and a busy period from the
command's write to its completion (R58, R205, R223). -/

namespace Sys2Proof.Machine

/-! ### Refused accesses -/

/-- A step whose access R51 refuses is refused under the same name. -/
theorem step_refused {s : State} {width : Nat} {off v : Word} {n : Nat} {rest : List HostEvent} {r : Refusal}
    (hh : s.host = .read width off :: rest ∨ s.host = .write width off v n :: rest)
    (hr : accessRefusal width off = some r) : step s = .refused r := by
  rcases hh with hh | hh <;> simp only [step, hh, hostEvent, hr]

/-- Settles O41: the refusal of an access depends on its width and offset only. -/
theorem badAccessesAreRefused : Obligations.BadAccessesAreRefused := by
  intro s width off v n rest hh
  refine ⟨fun hw => step_refused hh (if_pos hw), ?_, ?_⟩
  · rintro rfl hout
    exact step_refused hh (if_pos hout)
  · rintro rfl hlt hal
    exact step_refused hh ((if_neg (Nat.not_le_of_lt hlt)).trans (if_pos hal))

/-! ### The window map over 64-bit offsets -/

/-- The window map (R50), with the four single registers told apart by the offset as a word. -/
theorem windowReg_toNat (off : Word) :
    windowReg off.toNat =
      if off = 0x000 then .cmd
      else if off = 0x008 then .din
      else if off = 0x010 then .dout
      else if off = 0x018 then .status
      else if 0x100 ≤ off.toNat ∧ off.toNat < 0x1C8 then .lane ((off.toNat - 0x100) / 8)
      else if 0x200 ≤ off.toNat ∧ off.toNat < 0x240 then .out ((off.toNat - 0x200) / 8)
      else .reserved := by
  simp only [windowReg, ← BitVec.toNat_inj]
  rfl

theorem windowReg_eq_cmd_iff (off : Word) : windowReg off.toNat = .cmd ↔ off = 0x000 := by
  refine ⟨fun h => ?_, fun h => h ▸ rfl⟩
  rw [windowReg_toNat] at h
  split_ifs at h
  all_goals trivial

theorem windowReg_eq_din_iff (off : Word) : windowReg off.toNat = .din ↔ off = 0x008 := by
  refine ⟨fun h => ?_, fun h => h ▸ rfl⟩
  rw [windowReg_toNat] at h
  split_ifs at h
  all_goals trivial

theorem windowReg_eq_status_iff (off : Word) : windowReg off.toNat = .status ↔ off = 0x018 := by
  refine ⟨fun h => ?_, fun h => h ▸ rfl⟩
  rw [windowReg_toNat] at h
  split_ifs at h
  all_goals trivial

/-- The offsets of DOUT, LANE and OUT (R50, R57). -/
theorem unspecifiedWhileBusy_windowReg_iff (off : Word) :
    unspecifiedWhileBusy (windowReg off.toNat) = true ↔
      off = 0x010 ∨ (0x100 ≤ off.toNat ∧ off.toNat < 0x1C8) ∨ (0x200 ≤ off.toNat ∧ off.toNat < 0x240) := by
  rw [windowReg_toNat]
  split_ifs with hcmd hdin hdout hstatus hlane hout
  · simp [unspecifiedWhileBusy, hcmd]
  · simp [unspecifiedWhileBusy, hdin]
  · simp [unspecifiedWhileBusy, hdout]
  · simp [unspecifiedWhileBusy, hstatus]
  · exact iff_of_true rfl (.inr (.inl hlane))
  · exact iff_of_true rfl (.inr (.inr hout))
  · exact iff_of_false Bool.false_ne_true (not_or.2 ⟨hdout, not_or.2 ⟨hlane, hout⟩⟩)

/-- CMD and the reserved offsets read 0 (R55, log entry 11). -/
theorem readReg_eq_zero (s : State) {r : WindowReg} (hdin : r ≠ .din) (hstatus : r ≠ .status)
    (hu : unspecifiedWhileBusy r ≠ true) : readReg s r = 0 := by
  cases r with
  | cmd | reserved => rfl
  | din => exact absurd rfl hdin
  | status => exact absurd rfl hstatus
  | dout | lane | out => exact absurd rfl hu

/-- `OUT[c div 8]` packs the eight characters of OUTSTR from c on (R54). -/
theorem outWord_eq (s : State) {c : Nat} (hal : c % 8 = 0) :
    outWord s (c / 8) = packLE ((List.range 8).map fun k => s.outstr.toList.getD (c + k) 0) := by
  refine word_ext_bytes fun k hk => ?_
  have hword : (c + k) / 8 = c / 8 := by omega
  have hbyte : (c + k) % 8 = k := by omega
  have hchar : byteOf (outWord s (c / 8)) k = s.outstr.toList.getD (c + k) 0 := by
    simpa only [hword, hbyte] using byteOf_outWord s (c + k)
  rw [hchar, byteOf_packLE _ hk]
  simp [hk]

/-! ### Accesses while BUSY = 0 -/

/-- The value of a read is the engine's: the host's list is no part of it. -/
theorem readReg_host (s : State) (host : List HostEvent) (r : WindowReg) :
    readReg { s with host := host } r = readReg s r := by
  cases r <;> rfl

/-- The step of an accepted read while BUSY = 0 brings the register's value (R53 to R55). -/
theorem step_read_idle {s : State} {off : Word} {rest : List HostEvent} (hb : s.busy = false)
    (hh : s.host = .read 8 off :: rest) (ha : accessRefusal 8 off = none) :
    step s = .next { s with host := rest, rdata := readReg s (windowReg off.toNat) } := by
  have hp : s.pending = none := by simpa [State.busy] using hb
  have hb' : ({ s with host := rest } : State).busy = false := hb
  rw [step_read hh ha, hostRead_stated (.inl hb'), readReg_host]
  exact countAccess_idle hp

/-- Settles O39: the value of an idle read, register by register of the window map. -/
theorem windowReads : Obligations.WindowReads := by
  intro s off rest hb hh hlt hal
  rw [step_read_idle hb hh (accessRefusal_aligned hlt hal)]
  congr 2
  by_cases hcmd : off = 0x000
  · subst hcmd
    rfl
  rw [windowReg_toNat, if_neg hcmd]
  split_ifs with hdin hdout hstatus hlane hout
  · rfl
  · rfl
  · rfl
  · rfl
  · have hchar : (off.toNat - 0x200) % 8 = 0 := by omega
    exact outWord_eq s hchar
  · rfl

/-- Writes to every register but CMD and DIN are ignored (R55). -/
theorem hostWrite_ignored {r : WindowReg} (hcmd : r ≠ .cmd) (hdin : r ≠ .din) (v : Word) (n : Nat) (s : State) :
    hostWrite r v n s = .next s := by
  cases r with
  | cmd => exact absurd rfl hcmd
  | din => exact absurd rfl hdin
  | _ => rfl

/-- Settles O40: an idle write sets DIN at DIN's offset, and is ignored at every offset left. -/
theorem windowWrites : Obligations.WindowWrites := by
  intro s off v n rest hb hh hlt hal hcmd
  rw [step_write_idle hb hh (accessRefusal_aligned hlt hal)]
  have hcmd' := mt (windowReg_eq_cmd_iff off).1 hcmd
  split_ifs with hdin
  · rw [(windowReg_eq_din_iff off).2 hdin]
    exact if_neg (ne_true_of_eq_false hb)
  · exact hostWrite_ignored hcmd' (mt (windowReg_eq_din_iff off).1 hdin) v n _

/-! ### Accesses while BUSY = 1 -/

/-- A read while BUSY = 1, before it is counted (R57). -/
theorem hostRead_busy {s : State} (hb : s.busy = true) (width : Nat) (off : Word) (rest : List HostEvent) :
    hostRead (windowReg off.toNat) { s with host := rest } = afterBusyAccess (.read width off) rest s := by
  have hb' : ({ s with host := rest } : State).busy = true := hb
  dsimp only [afterBusyAccess]
  split_ifs with hdin hstatus hu
  · rw [(windowReg_eq_din_iff off).2 hdin, hostRead_stated (.inr rfl)]
    rfl
  · rw [(windowReg_eq_status_iff off).2 hstatus, hostRead_stated (.inr rfl)]
    rfl
  · exact hostRead_unspecified hb' ((unspecifiedWhileBusy_windowReg_iff off).2 hu)
  · have hstated := mt (unspecifiedWhileBusy_windowReg_iff off).1 hu
    rw [hostRead_stated (.inr (eq_false_of_ne_true hstated)),
      readReg_eq_zero _ (mt (windowReg_eq_din_iff off).1 hdin) (mt (windowReg_eq_status_iff off).1 hstatus) hstated]

/-- A write while BUSY = 1, before it is counted (R205). -/
theorem hostWrite_busy {s : State} (hb : s.busy = true) (width : Nat) (off v : Word) (n : Nat)
    (rest : List HostEvent) :
    hostWrite (windowReg off.toNat) v n { s with host := rest } =
      .next (afterBusyAccess (.write width off v n) rest s) := by
  dsimp only [afterBusyAccess]
  split_ifs with hviol
  · rcases hviol with hcmd | hdin
    · rw [(windowReg_eq_cmd_iff off).2 hcmd]
      exact if_pos hb
    · rw [(windowReg_eq_din_iff off).2 hdin]
      exact if_pos hb
  · obtain ⟨hcmd, hdin⟩ := not_or.1 hviol
    exact hostWrite_ignored (mt (windowReg_eq_cmd_iff off).1 hcmd) (mt (windowReg_eq_din_iff off).1 hdin) v n _

/-- The step of an accepted access while BUSY = 1 does what the access does, then counts it (R205, R223). -/
theorem step_busy {s : State} {e : HostEvent} {rest : List HostEvent} (hb : s.busy = true) (hh : s.host = e :: rest)
    (ha : e.accepted = true) : step s = countAccess (afterBusyAccess e rest s) := by
  have hb' : ({ s with host := rest } : State).busy = true := hb
  cases e with
  | reset => exact absurd ha Bool.false_ne_true
  | read width off =>
    simp only [step, hh, hostEvent, of_decide_eq_true ha, hostRead_busy hb width]
  | write width off v n =>
    simp only [step, hh, hostEvent, of_decide_eq_true ha, hb', if_true, hostWrite_busy hb width]

/-- An access while BUSY = 1 touches the host's side only: VIOL, what the host read and the draw counter (R57, R205). -/
theorem afterBusyAccess_eq {e : HostEvent} (ha : e.accepted = true) (rest : List HostEvent) (s : State) :
    afterBusyAccess e rest s =
      withHostSide (s.viol || e.writesCmdOrDin) s.pending rest (afterBusyAccess e rest s).rdata
        (afterBusyAccess e rest s).busyReads s := by
  cases e with
  | reset => exact absurd ha Bool.false_ne_true
  | read width off =>
    rw [HostEvent.writesCmdOrDin, Bool.or_false]
    dsimp only [afterBusyAccess]
    split_ifs <;> rfl
  | write width off v n =>
    have hviol : (s.viol || decide (off = 0x000 ∨ off = 0x008)) =
        if off = 0x000 ∨ off = 0x008 then true else s.viol := by
      split_ifs with h
      · rw [decide_eq_true h, Bool.or_true]
      · rw [decide_eq_false h, Bool.or_false]
    rw [HostEvent.writesCmdOrDin, hviol]
    rfl

theorem afterBusyAccess_pending {e : HostEvent} (ha : e.accepted = true) (rest : List HostEvent) (s : State) :
    (afterBusyAccess e rest s).pending = s.pending := by
  rw [afterBusyAccess_eq ha, withHostSide_pending]

theorem afterBusyAccess_viol {e : HostEvent} (ha : e.accepted = true) (rest : List HostEvent) (s : State) :
    (afterBusyAccess e rest s).viol = (s.viol || e.writesCmdOrDin) := by
  rw [afterBusyAccess_eq ha, withHostSide_viol]

theorem busy_of_pending {s : State} {p : Pending} (hp : s.pending = some p) : s.busy = true := by
  rw [State.busy, hp, Option.isSome_some]

/-- The step of an accepted access that is not the last of its busy period (R223). -/
theorem step_busy_more {s : State} {p : Pending} {e : HostEvent} {rest : List HostEvent} (hp : s.pending = some p)
    (hl : 2 ≤ p.left) (hh : s.host = e :: rest) (ha : e.accepted = true) :
    step s = .next { afterBusyAccess e rest s with pending := some { p with left := p.left - 1 } } := by
  rw [step_busy (busy_of_pending hp) hh ha, countAccess_more ((afterBusyAccess_pending ha rest s).trans hp) hl]

/-- The step of the last accepted access of a busy period (R205, R223). -/
theorem step_busy_last {s t : State} {p : Pending} {e : HostEvent} {rest : List HostEvent} (hp : s.pending = some p)
    (hl : p.left ≤ 1) (hh : s.host = e :: rest) (ha : e.accepted = true)
    (hout : outcome p.cmd (afterBusyAccess e rest s) = .next t) : step s = .next (settleViol t) := by
  rw [step_busy (busy_of_pending hp) hh ha, countAccess_last ((afterBusyAccess_pending ha rest s).trans hp) hl,
    completeCommand, hout]

/-- Settles O45: each read is one of `afterBusyAccess`, at the offsets of its own clause. -/
theorem busyReadsSeeTheOldStatus : Obligations.BusyReadsSeeTheOldStatus := by
  intro s p off rest hp hl hh hlt hal
  have hstep := step_busy_more hp hl hh (decide_eq_true (accessRefusal_aligned hlt hal))
  refine ⟨(statusBusy_statusWord s).trans (busy_of_pending hp), ?_, ?_, fun hu => ?_, fun hz => ?_⟩
  · rintro rfl
    exact hstep
  · rintro rfl
    exact hstep
  · have hdin : off ≠ 0x008 := by bv_omega
    have hstatus : off ≠ 0x018 := by bv_omega
    rw [hstep, afterBusyAccess, if_neg hdin, if_neg hstatus, if_pos hu]
  · have hdin : off ≠ 0x008 := by bv_omega
    have hstatus : off ≠ 0x018 := by bv_omega
    have hu : ¬ (off = 0x010 ∨ (0x100 ≤ off.toNat ∧ off.toNat < 0x1C8) ∨
        (0x200 ≤ off.toNat ∧ off.toNat < 0x240)) := by bv_omega
    rw [hstep, afterBusyAccess, if_neg hdin, if_neg hstatus, if_neg hu]

/-- BUSYWR at completion: VIOL is set and the command left no fault (R205). -/
theorem settleViol_raises {t : State} (hv : t.viol = true) (hp : t.phase ≠ .faulted) :
    settleViol t = { t with err := .busywr, phase := .faulted, viol := false, pending := none } :=
  if_pos ⟨hv, hp⟩

/-- No BUSYWR at completion: no violation, or the command's own fault came first (R205). -/
theorem settleViol_quiet {t : State} (h : t.viol = false ∨ t.phase = .faulted) :
    settleViol t = { t with viol := false, pending := none } := by
  refine if_neg fun ⟨hv, hp⟩ => ?_
  rcases h with h | h
  · exact absurd hv (ne_true_of_eq_false h)
  · exact hp h

/-- Settles O47: the outcome keeps VIOL and the value read as the access left them, and VIOL decides on BUSYWR. -/
theorem lastAccessCompletes : Obligations.LastAccessCompletes := by
  intro s t p e rest hp hl hh ha hout
  have hstep := step_busy_last hp hl.le hh ha hout
  have hside := outcome_next_keeps_hostSide hout
  have hviol : t.viol = (s.viol || e.writesCmdOrDin) :=
    (congrArg State.viol hside).trans (afterBusyAccess_viol ha rest s)
  refine ⟨fun hset hphase => ?_, fun hquiet => ?_, ?_, ?_⟩
  · rw [hstep, settleViol_raises (hviol.trans (by simpa using hset)) hphase]
  · rw [hstep, settleViol_quiet]
    simpa [hviol] using hquiet
  · rw [hside, withHostSide_rdata]
  · rw [hside, withHostSide_busyReads]

/-! ### A whole busy period -/

/-- The VIOL check clears the handshake and keeps the rest of the host's side (R205). -/
theorem settleViol_hostSide (v p host r k) (t : State) :
    settleViol (withHostSide v p host r k t) =
      withHostSide false none host r k
        (if v = true ∧ t.phase ≠ .faulted then { t with err := .busywr, phase := .faulted } else t) := by
  have hphase : (withHostSide v p host r k t).phase = t.phase := rfl
  rw [settleViol, withHostSide_viol, hphase]
  split_ifs <;> rfl

/-- An access that is not the last moves the host's side only and uses up one access, at any host side. -/
theorem step_busy_more_hostSide {e : HostEvent} (ha : e.accepted = true) (w : Word) (n : Nat) (v host r k) (s : State) :
    ∃ r' k', step (withHostSide v (some ⟨w, n + 2⟩) (e :: host) r k s) =
      .next (withHostSide (v || e.writesCmdOrDin) (some ⟨w, n + 1⟩) host r' k' s) := by
  have hstep := step_busy_more (s := withHostSide v (some ⟨w, n + 2⟩) (e :: host) r k s) rfl (Nat.le_add_left 2 n) rfl
    ha
  rw [afterBusyAccess_eq ha] at hstep
  exact ⟨_, _, hstep⟩

/-- The last access moves the host's side only, then brings the outcome and the VIOL check, at any host side. -/
theorem step_busy_last_hostSide {w : Word} {s t : State} (h : outcome w s = .next t) {e : HostEvent}
    (ha : e.accepted = true) (v host r k) :
    ∃ r' k', step (withHostSide v (some ⟨w, 1⟩) (e :: host) r k s) =
      .next (settleViol (withHostSide (v || e.writesCmdOrDin) (some ⟨w, 1⟩) host r' k' t)) := by
  have hout := outcome_next_hostSide h (v || e.writesCmdOrDin) (some ⟨w, 1⟩) host
  exact ⟨_, _, step_busy_last rfl (Nat.le_refl 1) rfl ha
    ((congrArg (outcome w) (afterBusyAccess_eq ha host _)).trans (hout _ _))⟩

/-- The accesses left in a busy period bring the command's outcome, with VIOL set where it was set before them or by one
of them, and then the VIOL check (R58, R205, R223). -/
theorem stepN_busy_complete {w : Word} {s t : State} (h : outcome w s = .next t) (rest : List HostEvent) {e : HostEvent}
    {es : List HostEvent} (he : e.accepted = true) (hes : ∀ a ∈ es, a.accepted = true) (v : Bool) (r : Word) (k : Nat) :
    ∃ r' k', stepN (es.length + 1) (withHostSide v (some ⟨w, es.length + 1⟩) (e :: (es ++ rest)) r k s) =
      .next (settleViol (withHostSide (v || (e :: es).any HostEvent.writesCmdOrDin) (some ⟨w, 1⟩) rest r' k' t)) := by
  induction es generalizing e v r k with
  | nil =>
    obtain ⟨r', k', hlast⟩ := step_busy_last_hostSide h he v rest r k
    refine ⟨r', k', ?_⟩
    rw [List.any_cons, List.any_nil, Bool.or_false, List.length_nil, stepN, List.nil_append, hlast]
    rfl
  | cons e' es ih =>
    obtain ⟨he', hes'⟩ := List.forall_mem_cons.1 hes
    obtain ⟨r₁, k₁, hmore⟩ := step_busy_more_hostSide he w es.length v (e' :: es ++ rest) r k s
    obtain ⟨r', k', htail⟩ := ih he' hes' (v || e.writesCmdOrDin) r₁ k₁
    refine ⟨r', k', ?_⟩
    rw [List.length_cons, stepN, hmore, List.any_cons, ← Bool.or_assoc]
    exact htail

/-- Settles O48: the write puts the command in progress, and the accesses its latency counts complete it. -/
theorem busyPeriodIsAtomic : Obligations.BusyPeriodIsAtomic := by
  intro s t w accesses rest hb hv hne ha hh hout
  obtain ⟨e, es, rfl⟩ := List.exists_cons_of_ne_nil hne
  obtain ⟨he, hes⟩ := List.forall_mem_cons.1 ha
  have hp : s.pending = none := by simpa [State.busy] using hb
  have ht : t = withHostSide false none rest s.rdata s.busyReads t := by
    simpa only [hv, hp] using outcome_next_keeps_hostSide hout
  obtain ⟨r, k, hbusy⟩ := stepN_busy_complete hout rest he hes false s.rdata s.busyReads
  refine ⟨r, k, ?_⟩
  rw [stepN, step_write_cmd hb hh, issueCommand_pos (n := (e :: es).length) es.length.succ_pos]
  calc
    _ = stepN (es.length + 1)
          (withHostSide false (some ⟨w, es.length + 1⟩) (e :: (es ++ rest)) s.rdata s.busyReads
            { s with host := rest }) := by
      rw [← hv]
      rfl
    _ = _ := hbusy
    _ = _ := by
      rw [settleViol_hostSide, Bool.false_or, ht]
      split_ifs <;> rfl

end Sys2Proof.Machine
end

section
/-! PROOFS. The encoding (R70 to R75): a value is its four fields, and the illegal values are those that no row of R74
takes. -/

namespace Sys2Proof.Machine

/-- Settles O2: the four fields of an encoding are read back as they were written. -/
theorem decodeOfEncode : Obligations.DecodeOfEncode := fun _ hw => decode_encode hw

/-- A command value is its four fields put together (R70, R71). -/
theorem append_fields (w : Word) : fieldHigh w ++ fieldOpc w ++ fieldRsv w ++ fieldArg w = w := by
  have hhigh : fieldHigh w ++ fieldOpc w = w.extractLsb' 24 40 :=
    BitVec.extractLsb'_append_extractLsb'_eq_extractLsb' rfl
  have hcmd : w.extractLsb' 24 40 ++ fieldRsv w = w.extractLsb' 8 56 :=
    BitVec.extractLsb'_append_extractLsb'_eq_extractLsb' rfl
  have hall : w.extractLsb' 8 56 ++ fieldArg w = w.extractLsb' 0 64 :=
    BitVec.extractLsb'_append_extractLsb'_eq_extractLsb' rfl
  rw [hhigh, hcmd, hall, BitVec.extractLsb'_eq_self]

/-- Settles O3: the decoded command has the fields of the value, so its encoding is that value. -/
theorem encodeOfDecode : Obligations.EncodeOfDecode := by
  intro w i h
  obtain ⟨hw, hhigh, hrsv, hopc, harg⟩ := fields_of_decode h
  refine ⟨hw, ?_⟩
  calc
    encode i = fieldHigh w ++ fieldOpc w ++ fieldRsv w ++ fieldArg w := by
      rw [encode, hhigh, hrsv, hopc, harg]
      rfl
    _ = w := append_fields w

/-- Settles O5: each value is the encoding of its command. -/
theorem decodedWordsOfTheTable : Obligations.DecodedWordsOfTheTable :=
  ⟨decode_encode (i := .nop) rfl, decode_encode (i := .init) rfl, decode_encode (i := .absorb 3) rfl,
    decode_encode (i := .finalize) rfl, decode_encode (i := .sqbegin) rfl, decode_encode (i := .squeeze 8) rfl,
    decode_encode (i := .digest .uuid) rfl, decode_encode (i := .permute) rfl, decode_encode (i := .ldlane 24) rfl⟩

/-- The opcode map names a well-formed command for every OPC and ARG that R75 (c) to (g) leave (R74). -/
theorem exists_instrOfFields {opc arg : Nat} (hopc : opc < 9) (hcount : opc = 2 ∨ opc = 5 → 1 ≤ arg ∧ arg ≤ 8)
    (hfmt : opc = 6 → arg ≤ 2) (hidx : opc = 8 → arg ≤ 24)
    (hbare : opc = 0 ∨ opc = 1 ∨ opc = 3 ∨ opc = 4 ∨ opc = 7 → arg = 0) :
    ∃ i, instrOfFields opc arg = .ok i ∧ i.wellFormed = true := by
  unfold instrOfFields
  split
  case h_3 | h_6 => exact ⟨_, rfl, decide_eq_true (hcount (by decide))⟩
  case h_7 =>
    have harg : arg ≤ 2 := hfmt rfl
    interval_cases arg <;> exact ⟨_, rfl, rfl⟩
  case h_9 => exact ⟨_, rfl, decide_eq_true (hidx rfl)⟩
  case h_10 =>
    simp only [imp_false] at *
    omega
  all_goals exact ⟨_, if_pos (hbare (by decide)), rfl⟩

/-- A value that is none of R75 (a) to (g) decodes (R74). -/
theorem decode_of_not_illegalValue {w : Word} (h : ¬ illegalValue w) : ∃ i, decode w = .ok i := by
  simp only [illegalValue, ← fieldOpc_toNat, ← fieldArg_toNat, not_or] at h
  obtain ⟨hhigh, hrsv, hopc, hcount, hfmt, hidx, hbare⟩ := h
  obtain ⟨i, hi, hw⟩ : ∃ i, instrOfFields (fieldOpc w).toNat (fieldArg w).toNat = .ok i ∧ i.wellFormed = true :=
    exists_instrOfFields (by omega) (by omega) (by omega) (by omega) (by omega)
  have hhigh' : fieldHigh w = 0 := (fieldHigh_eq_zero_iff w).2 (not_not.1 hhigh)
  have hrsv' : fieldRsv w = 0 := (fieldRsv_eq_zero_iff w).2 (not_not.1 hrsv)
  exact ⟨i, by simp only [decode, hhigh', hrsv', hi, hw, ne_eq, not_true_eq_false, if_false, if_true]⟩

/-- The decoder rejects the illegal values of R75 and no other. -/
theorem decode_error_iff (w : Word) : (∃ e, decode w = .error e) ↔ illegalValue w := by
  refine ⟨fun ⟨e, he⟩ => ?_, decode_illegalValue⟩
  by_contra h
  obtain ⟨i, hi⟩ := decode_of_not_illegalValue h
  exact nomatch he.symm.trans hi

/-- An illegal value raises Fault(ILLEGAL), or is ignored in FAULTED (R75, R204, R206). -/
theorem rejectsValue_of_illegalValue {w : Word} (h : illegalValue w) : RejectsValue w :=
  fun s => outcome_illegalValue h s

/-- Settles O4: every value outside R75 (a) to (g) decodes, and a value inside is rejected. -/
theorem illegalValuesFault : Obligations.IllegalValuesFault :=
  fun w => ⟨decode_error_iff w, rejectsValue_of_illegalValue⟩

end Sys2Proof.Machine
end

section
/-! PROOFS. The bytes SQUEEZE delivers to DOUT (R73, R138, R140). -/

namespace Sys2Proof.Machine

/-- SQUEEZE N in SQUEEZING, the cursor in range, runs its effect (R140). -/
theorem exec_squeeze {n : Nat} {s : State} (hn : 1 ≤ n ∧ n ≤ 8) (hp : s.phase = .squeezing) (hq : s.sqpos ≤ 136) :
    exec (.squeeze n) s = .next (squeezeToDout n s) := by
  have hw : (Instr.squeeze n).wellFormed = true := decide_eq_true hn
  rw [exec_eq_dispatch, dispatchCommand_runs hw ((legalIn_squeeze_iff n _).2 hp)]
  exact withCursor_runs hq

/-- The k-th squeezed byte stands at the cursor plus k in the current block, or in the block after the next Perm
(R138). -/
theorem squeezeBytes_getD {n k : Nat} {s : State} (hq : s.sqpos ≤ 136) (hn : n ≤ 136) (hk : k < n) :
    (squeezeBytes n s).1.getD k 0 =
      if s.sqpos + k < 136 then stByte s.lanes (s.sqpos + k) else stByte (perm s.lanes) (s.sqpos + k - 136) := by
  rcases Nat.lt_or_ge 136 (s.sqpos + n) with hcross | hwithin
  · rw [squeezeBytes_crosses hq hcross hn]
    split_ifs with hblock
    · have hfront : k < 136 - s.sqpos := by omega
      simp [List.getElem?_append_left, hfront]
    · have hback : 136 - s.sqpos ≤ k := by omega
      have hpos : k - (136 - s.sqpos) = s.sqpos + k - 136 := by omega
      have hrest : s.sqpos + k - 136 < s.sqpos + n - 136 := by omega
      simp [List.getElem?_append_right, hback, hpos, hrest]
  · have hblock : s.sqpos + k < 136 := by omega
    rw [squeezeBytes_within hwithin, if_pos hblock]
    simp [hk]

/-- Byte k of DOUT after SQUEEZE is the k-th byte squeezed, zero beyond the last (R73). -/
theorem squeezeToDout_byte (n : Nat) (s : State) {k : Nat} (hk : k < 8) :
    (squeezeToDout n s).dout.extractLsb' (8 * k) 8 = (squeezeBytes n s).1.getD k 0 :=
  byteOf_packLE _ hk

/-- Settles O23: DOUT is read byte by byte, and the byte sequence has N bytes. -/
theorem doutHoldsTheSqueezedBytes : Obligations.DoutHoldsTheSqueezedBytes := by
  intro s n hpos hn hp hq
  refine ⟨squeezeToDout n s, exec_squeeze ⟨hpos, hn⟩ hp hq, fun k hk => ?_, fun k hnk hk => ?_⟩
  · rw [squeezeToDout_byte n s (by omega), squeezeBytes_getD hq (by omega) hk]
  · rw [squeezeToDout_byte n s hk]
    exact List.getD_eq_default _ _ (by rw [squeezeBytes_length]; exact hnk)

end Sys2Proof.Machine
end

section
/-! PROOFS. The four steps of a round lane by lane (R102 to R111), Perm as its 24 rounds (R100) and PERMUTE (R113). -/

namespace Sys2Proof.Machine

/-! ### Theta (R102 to R104) -/

theorem matAt_theta (a : Lanes) {x y : Nat} (hx : x < 5) (hy : y < 5) :
    matAt (theta a) x y = matAt a x y ^^^ thetaMix a x := matAt_matOf _ hx hy

/-- The lane store of R104's worked step: A[0][0] = 1, every other lane 0. -/
def unitLanes : Lanes := setLane (Vector.replicate 25 0) 0 1

theorem matAt_unitLanes (x y : Nat) : matAt unitLanes x y = if x = 0 ∧ y = 0 then 1 else 0 := by
  have hfirst : 5 * y + x = 0 ↔ x = 0 ∧ y = 0 := by omega
  simp only [matAt, unitLanes, laneAt_setLane _ (show 0 < 25 by decide), laneAt_zero, hfirst]

/-- C = (1, 0, 0, 0, 0) in the worked step. -/
theorem columnParity_unitLanes (x : Nat) : columnParity unitLanes x = if x = 0 then 1 else 0 := by
  simp [columnParity, matAt_unitLanes]

/-- D = (0, 1, 0, 0, 2) in the worked step. -/
theorem thetaMix_unitLanes {x : Nat} (hx : x < 5) :
    thetaMix unitLanes x = if x = 1 then 1 else if x = 4 then 2 else 0 := by
  simp only [thetaMix, columnParity_unitLanes]
  interval_cases x <;> decide

/-- Settles O6: D is XORed into each lane, and the worked step has the C and D of R104. -/
theorem thetaMixesColumnParities : Obligations.ThetaMixesColumnParities := by
  refine ⟨fun a x y hx hy => matAt_theta a hx hy, fun x hx y hy => ?_⟩
  calc matAt (theta unitLanes) x y
      = (if x = 0 ∧ y = 0 then 1 else 0) ^^^ (if x = 1 then 1 else if x = 4 then 2 else 0) := by
        rw [matAt_theta _ hx hy, matAt_unitLanes, thetaMix_unitLanes hx]
    _ = _ := by interval_cases x <;> simp

/-! ### Rho and pi (R105 to R107) -/

/-- The move of R107 undone: the source column of a destination (p, q) is (p + 3q) mod 5. -/
theorem source_of_destination {x p q : Nat} (hx : x < 5) (hq : q < 5) :
    (2 * x + 3 * p) % 5 = q ↔ x = (p + 3 * q) % 5 := by omega

theorem matAt_rhoPi (r : Nat) (e : Lanes) {x y : Nat} (hx : x < 5) (hy : y < 5) :
    matAt (rhoPi r e) y ((2 * x + 3 * y) % 5) = rotl (matAt e x y) (rotAmount x y r) := by
  have hq : (2 * x + 3 * y) % 5 < 5 := Nat.mod_lt _ (by decide)
  have hsource : (y + 3 * ((2 * x + 3 * y) % 5)) % 5 = x := ((source_of_destination hx hq).1 rfl).symm
  rw [rhoPi, matAt_matOf _ hy hq, hsource]

/-- Settles O7: the destination form read at the move's image, and the move's inverse. -/
theorem rhoPiMovesAndRotates : Obligations.RhoPiMovesAndRotates := by
  refine ⟨fun e r x y hx hy => matAt_rhoPi r e hx hy, fun p q hp hq => ?_⟩
  have hx : (p + 3 * q) % 5 < 5 := Nat.mod_lt _ (by decide)
  refine ⟨(p + 3 * q) % 5, p, hx, hp, rfl, (source_of_destination hx hq).2 rfl, ?_⟩
  rintro x' y' hx' - rfl hq'
  exact ⟨(source_of_destination hx' hq).1 hq', rfl⟩

theorem rotAmount_le (x y r : Nat) : rotAmount x y r ≤ 63 := Nat.le_of_lt_succ (Nat.mod_lt _ (by decide))

/-- The positions and rounds of the schedule whose amount is `v`, in the order of the rounds (R106). -/
def triplesWithAmount (v : Nat) : List (Nat × Nat × Nat) :=
  (List.range 24).flatMap fun r => (List.range 5).flatMap fun x =>
    ((List.range 5).filter fun y => rotAmount x y r = v).map fun y => (x, y, r)

theorem mem_triplesWithAmount (v : Nat) {x y r : Nat} (hx : x < 5) (hy : y < 5) (hr : r < 24) :
    (x, y, r) ∈ triplesWithAmount v ↔ rotAmount x y r = v := by
  simp [triplesWithAmount, hx, hy, hr]

/-- R106's list of the identity rotations. -/
theorem triplesWithAmount_zero : triplesWithAmount 0 =
    [(3, 4, 1), (4, 3, 4), (0, 4, 7), (2, 4, 11), (0, 1, 13), (4, 4, 14), (3, 1, 15), (1, 4, 16), (0, 2, 19),
      (4, 1, 21), (4, 0, 22)] := by decide

/-- R106's list of the rotations by 63. -/
theorem triplesWithAmount_max : triplesWithAmount 63 =
    [(1, 2, 2), (2, 3, 7), (4, 4, 9), (3, 4, 10), (4, 3, 11), (2, 0, 13), (3, 3, 16), (2, 1, 19)] := by decide

/-- Settles O8: the amount is taken mod 64, and the two lists are all the triples with their amount. -/
theorem rotationAmountsOfTheSchedule : Obligations.RotationAmountsOfTheSchedule := by
  refine ⟨rotAmount_le, fun x hx y hy r hr => ?_, fun x hx y hy r hr => ?_, by decide⟩
  · rw [← triplesWithAmount_zero, mem_triplesWithAmount 0 hx hy hr]
  · rw [← triplesWithAmount_max, mem_triplesWithAmount 63 hx hy hr]

/-! ### Chi (R108, R109) -/

theorem matAt_chi (b : Lanes) {x y : Nat} (hx : x < 5) (hy : y < 5) :
    matAt (chi b) x y = matAt b x y ^^^ (~~~ matAt b ((x + 1) % 5) y &&& matAt b ((x + 2) % 5) y) :=
  matAt_matOf _ hx hy

/-- Chi leaves a row of equal lanes, since ~v & v = 0; the rows of R108 are v = 0 and v = all ones. -/
theorem matAt_chi_of_constant_row {b : Lanes} {y : Nat} {v : Word} (hy : y < 5) (hrow : ∀ x < 5, matAt b x y = v)
    {x : Nat} (hx : x < 5) : matAt (chi b) x y = v := by
  rw [matAt_chi b hx hy, hrow x hx, hrow _ (Nat.mod_lt _ (by decide)), hrow _ (Nat.mod_lt _ (by decide))]
  simp

/-- Settles O9: each lane from the lanes before chi, and a row of equal lanes stays. -/
theorem chiReadsTheSnapshot : Obligations.ChiReadsTheSnapshot := fun b _ hy =>
  ⟨fun _ hx => matAt_chi b hx hy, fun hrow _ hx => matAt_chi_of_constant_row hy hrow hx,
    fun hrow _ hx => matAt_chi_of_constant_row hy hrow hx⟩

/-! ### Iota (R110, R111) -/

/-- Settles O10: iota is one lane write. -/
theorem iotaTouchesOneLane : Obligations.IotaTouchesOneLane := fun f r i _ =>
  laneAt_setLane f (by decide) (matAt f 0 0 ^^^ roundConstant r) i

/-- Settles O11: the 24 constants are evaluated on both sides. -/
theorem roundConstantsFollowTheLfsr : Obligations.RoundConstantsFollowTheLfsr := by
  unfold Obligations.RoundConstantsFollowTheLfsr
  decide

/-! ### Perm (R100, R101) -/

/-- The lane store before round k (R100). -/
def permRounds (k : Nat) (l : Lanes) : Lanes := (List.range k).foldl (fun a r => permRound r a) l

theorem permRounds_succ (k : Nat) (l : Lanes) : permRounds (k + 1) l = permRound k (permRounds k l) := by
  rw [permRounds, List.range_succ, List.foldl_append]
  rfl

/-! ### Encodings and phases of a command -/

/-- A command alone with its opcode has one value; every other value with that opcode is illegal (R75). -/
theorem bareEncoding {i : Instr} (hw : i.wellFormed = true) (halone : ∀ j : Instr, j.opc = i.opc → j = i) :
    BareEncoding i (encode i) := by
  refine ⟨decode_encode hw, fun w hopc hne => rejectsValue_of_illegalValue ?_⟩
  by_contra hlegal
  obtain ⟨j, hj⟩ := decode_of_not_illegalValue hlegal
  obtain ⟨-, -, -, hjopc, -⟩ := fields_of_decode hj
  obtain ⟨-, -, hiopc, -⟩ : Laws.EncodeFields.Statement i := Laws.EncodeFields.fields _ _
  have hji : j = i := halone j (by rw [← hjopc, hopc, hiopc])
  exact hne (by rw [← hji, (encodeOfDecode w j hj).2])

/-- Every command but INIT is ignored in FAULTED (R206). -/
theorem exec_faulted {i : Instr} {s : State} (hi : i ≠ .init) (hp : s.phase = .faulted) : exec i s = .next s := by
  rw [exec_eq_dispatch, dispatchCommand_faulted hp hi]

/-- A well-formed command in a phase that R203 does not list for it (R200 case 4). -/
theorem exec_contract {i : Instr} {s : State} (hw : i.wellFormed = true) (hp : s.phase ≠ .faulted)
    (hl : legalIn i s.phase = false) : exec i s = .next (raiseFault .contract s) := by
  rw [exec_eq_dispatch, dispatchCommand_contract hw hp hl]

/-- PERMUTE is legal in ABSORBING and SQUEEZING (R203). -/
theorem legalIn_permute_iff (p : Phase) : legalIn .permute p = true ↔ p = .absorbing ∨ p = .squeezing := by
  cases p <;> simp [legalIn]

/-- PERMUTE's only value (R74). -/
theorem permute_bareEncoding : BareEncoding .permute 0x0000000007000000 :=
  bareEncoding (i := .permute) rfl fun j hj => by
    cases j with
    | permute => rfl
    | _ => cases hj

/-- Settles O12: Perm round by round, PERMUTE's encoding, and the dispatch of PERMUTE in each phase. -/
theorem permuteAppliesPerm : Obligations.PermuteAppliesPerm := by
  refine ⟨fun l => ⟨fun k => permRounds k l, rfl, rfl, fun r _ => permRounds_succ r l⟩, permute_bareEncoding,
    fun s => ⟨fun hp => ?_, fun hp => ?_, exec_faulted (by decide)⟩⟩
  · rw [exec_eq_dispatch, dispatchCommand_runs rfl ((legalIn_permute_iff _).2 hp)]
    rfl
  · exact exec_contract rfl (by simp [hp]) (by rw [hp]; rfl)

end Sys2Proof.Machine
end

section
/-! PROOFS. Under the invariant every command and every accepted host event answers (R112, R142, R209). -/

namespace Sys2Proof.Machine

/-- A command is stuck on a counter out of range only (R142, U8). -/
theorem exec_answers {s : State} (h : s.Inv) (i : Instr) : ∃ t, exec i s = .next t := by
  obtain ⟨⟨hbuf, hsqpos, -⟩, -⟩ := h
  rw [exec_eq_dispatch]
  rcases dispatchCommand_cases i (effectResult i) s with ⟨-, -, hd⟩ | ⟨-, -, hd⟩ | ⟨-, -, -, hd⟩ | ⟨-, -, hd⟩
  · exact ⟨_, hd⟩
  · exact ⟨_, hd⟩
  · exact ⟨_, hd⟩
  · exact ⟨_, hd.trans (effectResult_runs (Nat.lt_succ_of_le hbuf) hsqpos)⟩

theorem outcome_answers {s : State} (h : s.Inv) (w : Word) : ∃ t, outcome w s = .next t := by
  unfold outcome
  split
  · exact ⟨_, rfl⟩
  · exact exec_answers h _

theorem issueCommand_answers {s : State} (h : s.Inv) (w : Word) (n : Nat) : ∃ t, issueCommand w n s = .next t := by
  rcases Nat.eq_zero_or_pos n with rfl | hn
  · exact outcome_answers h w
  · exact ⟨_, issueCommand_pos hn w s⟩

theorem hostWrite_answers {s : State} (h : s.Inv) (r : WindowReg) (v : Word) (n : Nat) :
    ∃ t, hostWrite r v n s = .next t := by
  cases r with
  | cmd =>
    simp only [hostWrite]
    split_ifs
    · exact ⟨_, rfl⟩
    · exact issueCommand_answers h v n
  | din =>
    simp only [hostWrite]
    split_ifs <;> exact ⟨_, rfl⟩
  | _ => exact ⟨_, rfl⟩

/-- A counted access leaves the command in progress or completes it, and its outcome answers (R223). -/
theorem countAccess_answers {s : State} (h : s.Inv) : ∃ t, countAccess s = .next t := by
  cases hp : s.pending with
  | none => exact ⟨_, countAccess_idle hp⟩
  | some p =>
    rcases Nat.lt_or_ge 1 p.left with hmore | hlast
    · exact ⟨_, countAccess_more hp hmore⟩
    · obtain ⟨t, ht⟩ := outcome_answers h p.cmd
      exact ⟨settleViol t, by rw [countAccess_last hp hlast, completeCommand, ht]⟩

/-- The access itself keeps the invariant, so counting it answers. -/
theorem hostEvent_answers {s : State} (h : s.Inv) {e : HostEvent} (he : e.accepted = true ∨ e = .reset) :
    ∃ t, hostEvent e s = .next t := by
  cases e with
  | reset => exact ⟨_, rfl⟩
  | read width off =>
    have ha : accessRefusal width off = none := of_decide_eq_true (he.resolve_right nofun)
    simp only [hostEvent, ha]
    exact countAccess_answers (inv_hostRead h _)
  | write width off v n =>
    have ha : accessRefusal width off = none := of_decide_eq_true (he.resolve_right nofun)
    obtain ⟨u, hu⟩ := hostWrite_answers h (windowReg off.toNat) v n
    simp only [hostEvent, ha, hu]
    split_ifs
    · exact countAccess_answers (inv_hostWrite h hu)
    · exact ⟨u, rfl⟩

/-- Settles O55: a command dispatches, and a step is the next host event. -/
theorem nothingIsStuckUnderTheInvariant : Obligations.NothingIsStuckUnderTheInvariant := by
  refine ⟨fun i s h => exec_answers h i, fun s e rest h hh he => ?_⟩
  simp only [step, hh]
  exact hostEvent_answers (s := { s with host := rest }) h he

end Sys2Proof.Machine
end

section
/-! PROOFS. The XOR unit byte by byte (R121), the encoding of a command with a count or index (R72, R75), LDLANE (R122)
and NOP (R123). -/

namespace Sys2Proof.Machine

/-! ### XorBlock -/

/-- Two lane stores with the same 200 state bytes are equal (R21). -/
theorem lanes_ext_stByte {l m : Lanes} (h : ∀ j < 200, stByte l j = stByte m j) : l = m := by
  refine lanes_ext fun i hi => word_ext_bytes fun k hk => ?_
  rw [← stByte_of_lane l i hk, ← stByte_of_lane m i hk]
  exact h (8 * i + k) (by omega)

/-- The byte form of XorBlock: the block goes into bytes 0..135, the capacity bytes stay (R121). -/
theorem stByte_xorBlock (blk : List Byte) (l : Lanes) {j : Nat} (hj : j < 200) :
    stByte (xorBlock blk l) j = if j < 136 then stByte l j ^^^ blk.getD j 0 else stByte l j := by
  have hrate : j / 8 < 17 ↔ j < 136 := by omega
  rw [stByte, laneAt_xorBlock blk l (by omega)]
  simp only [hrate]
  split_ifs
  · rw [byteOf_xor, byteOf_blockLane, stByte]
  · rfl

theorem xorBlock_xorBlock (blk : List Byte) (l : Lanes) : xorBlock blk (xorBlock blk l) = l := by
  refine lanes_ext_stByte fun j hj => ?_
  simp only [stByte_xorBlock _ _ hj]
  split_ifs
  · rw [BitVec.xor_assoc, BitVec.xor_self, BitVec.xor_zero]
  · rfl

theorem xorBlock_zeros (n : Nat) (l : Lanes) : xorBlock (List.replicate n 0) l = l := by
  refine lanes_ext_stByte fun j hj => ?_
  have hzero : (List.replicate n (0 : Byte)).getD j 0 = 0 := by
    rw [List.getD_eq_getElem?_getD, List.getElem?_replicate]
    split_ifs <;> rfl
  rw [stByte_xorBlock _ _ hj, hzero]
  split_ifs
  · exact BitVec.xor_zero
  · rfl

/-- Settles O14: each clause is read off the byte form of XorBlock. -/
theorem xorBlockIsBytewise : Obligations.XorBlockIsBytewise := fun blk l _ =>
  ⟨fun j hj => (stByte_xorBlock blk l (by omega)).trans (if_pos hj),
    fun _ hrate hj => (stByte_xorBlock blk l hj).trans (if_neg (by omega)),
    xorBlock_xorBlock blk l, xorBlock_zeros 136 l⟩

/-! ### Commands with a count or index -/

/-- ARG is ORed into the eight bits that an encoding with ARG = 0 leaves clear (R71). -/
theorem append_zero_or_setWidth (v : BitVec 56) (a : BitVec 8) :
    (v ++ 0#8) ||| a.setWidth 64 = v ++ a := by
  have hzero : a.setWidth 64 = 0#56 ++ a := BitVec.setWidth_eq_append (by decide)
  calc
    (v ++ 0#8) ||| a.setWidth 64 = (v ||| 0#56) ++ (0#8 ||| a) := by rw [hzero, BitVec.or_append]
    _ = v ++ a := by rw [BitVec.or_zero, BitVec.zero_or]

/-- A family of commands alone with its opcode, well-formed for operands lo to hi: ARG in lo..hi is the operand, and
every other ARG is illegal (R72, R75). -/
theorem argEncoding {mk : Nat → Instr} {lo hi : Nat} (hhi : hi < 256) (hopc : ∀ n, (mk n).opc = (mk 0).opc)
    (harg : ∀ n, (mk n).arg = BitVec.ofNat 8 n) (hwf : ∀ n, (mk n).wellFormed = true ↔ lo ≤ n ∧ n ≤ hi)
    (halone : ∀ j : Instr, j.opc = (mk 0).opc → ∃ n, j = mk n) : ArgEncoding mk (encode (mk 0)) lo hi := by
  intro a
  have hvalue : encode (mk 0) ||| a.setWidth 64 = encode (mk a.toNat) := by
    rw [encode, encode, hopc a.toNat, harg a.toNat, harg 0, BitVec.ofNat_toNat, BitVec.setWidth_eq]
    exact append_zero_or_setWidth _ a
  rw [hvalue]
  refine ⟨fun hin => decode_encode ((hwf _).2 hin), fun hout => rejectsValue_of_illegalValue ?_⟩
  by_contra hlegal
  obtain ⟨j, hj⟩ := decode_of_not_illegalValue hlegal
  obtain ⟨hjwf, -, -, hjopc, hjarg⟩ := fields_of_decode hj
  obtain ⟨-, -, hvopc, hvarg⟩ : Laws.EncodeFields.Statement (mk a.toNat) := Laws.EncodeFields.fields _ _
  obtain ⟨n, rfl⟩ := halone j (by rw [← hjopc, hvopc, hopc])
  have hn : lo ≤ n ∧ n ≤ hi := (hwf n).1 hjwf
  have ha : a = BitVec.ofNat 8 n := by
    rw [← harg n, ← hjarg, hvarg, harg, BitVec.ofNat_toNat, BitVec.setWidth_eq]
  rw [ha, BitVec.toNat_ofNat, Nat.mod_eq_of_lt (by omega)] at hout
  exact hout hn

/-! ### LDLANE -/

/-- LDLANE is legal in ABSORBING and SQUEEZING (R203). -/
theorem legalIn_ldlane_iff (idx : Nat) (p : Phase) :
    legalIn (.ldlane idx) p = true ↔ p = .absorbing ∨ p = .squeezing := by
  cases p <;> simp [legalIn]

/-- LDLANE's values: the lane index in ARG (R74). -/
theorem ldlane_argEncoding : ArgEncoding .ldlane 0x0000000008000000 0 24 :=
  argEncoding (mk := .ldlane) (by decide) (fun _ => rfl) (fun _ => rfl) (fun n => by simp [Instr.wellFormed])
    fun j hj => by
      cases j with
      | ldlane idx => exact ⟨idx, rfl⟩
      | _ => cases hj

/-- Settles O15: LDLANE's encoding, its one lane write, and its dispatch in DONE and FAULTED. -/
theorem ldlaneWritesOneLane : Obligations.LdlaneWritesOneLane := by
  refine ⟨ldlane_argEncoding, fun s idx hidx => ?_⟩
  have hw : (Instr.ldlane idx).wellFormed = true := decide_eq_true hidx
  refine ⟨fun hp => ⟨setLane s.lanes idx s.din, ?_, fun i _ => laneAt_setLane s.lanes (by omega) s.din i⟩,
    fun hp => exec_contract hw (by simp [hp]) (by rw [hp]; rfl), exec_faulted nofun⟩
  rw [exec_eq_dispatch, dispatchCommand_runs hw ((legalIn_ldlane_iff idx _).2 hp)]
  rfl

/-! ### NOP -/

/-- NOP is legal in every phase but FAULTED (R203). -/
theorem legalIn_nop_iff (p : Phase) : legalIn .nop p = true ↔ p ≠ .faulted := by cases p <;> simp [legalIn]

/-- NOP's only value (R74). -/
theorem nop_bareEncoding : BareEncoding .nop 0x0000000000000000 :=
  bareEncoding (i := .nop) rfl fun j hj => by
    cases j with
    | nop => rfl
    | _ => cases hj

/-- Settles O16: NOP is ignored in FAULTED, and its effect in the other phases is the state itself. -/
theorem nopChangesNothing : Obligations.NopChangesNothing := by
  refine ⟨nop_bareEncoding, fun s => ?_⟩
  by_cases hp : s.phase = .faulted
  · exact exec_faulted (by decide) hp
  · rw [exec_eq_dispatch, dispatchCommand_runs rfl ((legalIn_nop_iff _).2 hp)]
    rfl

end Sys2Proof.Machine
end

section
/-! PROOFS. Where a command leads (R130): the phase of each effect, a command that its phase does not allow (R200, R203,
R206), and the way out of FAULTED (R131, R207). -/

namespace Sys2Proof.Machine

/-! ### The transition table (R130) -/

/-- INIT is legal in every phase (R203). -/
theorem legalIn_init (p : Phase) : legalIn .init p = true := by cases p <;> rfl

/-- FINALIZE is legal in ABSORBING and SQUEEZING (R203). -/
theorem legalIn_finalize_iff (p : Phase) : legalIn .finalize p = true ↔ p = .absorbing ∨ p = .squeezing := by
  cases p <;> simp [legalIn]

/-- The table of R130 leads to FAULTED wherever R203 does not list the command. -/
theorem phaseAfter_of_not_legalIn {i : Instr} {p : Phase} (hl : legalIn i p = false) : phaseAfter i p = .faulted := by
  revert hl
  cases i <;> cases p <;> simp [legalIn, phaseAfter]

/-- INIT's row is the only one of R130 that leads to ABSORBING from another phase. -/
theorem eq_init_of_phaseAfter_absorbing {i : Instr} {p : Phase} (h : phaseAfter i p = .absorbing)
    (hp : p ≠ .absorbing) : i = .init := by
  cases p with
  | absorbing => exact absurd rfl hp
  | _ =>
    revert h
    cases i <;> simp [phaseAfter]

theorem absorbBytes_phase (bs : List Byte) (s : State) : (absorbBytes bs s).phase = s.phase := by rw [absorbBytes_eq]

/-- A command that runs leaves the phase of R130. -/
theorem effectState_phase {i : Instr} {s : State} (hl : legalIn i s.phase = true) :
    (effectState i s).phase = phaseAfter i s.phase := by
  cases i with
  | nop => rfl
  | init => rfl
  | absorb n =>
    have hp : s.phase = .absorbing := (legalIn_absorb_iff n _).1 hl
    rw [effectState_absorb, absorbBytes_phase, hp]
    rfl
  | finalize =>
    have hp : s.phase = .absorbing ∨ s.phase = .squeezing := (legalIn_finalize_iff _).1 hl
    have hsqz : (effectState .finalize s).phase = .squeezing := finalizeOnce_phase hp
    rcases hp with hp | hp <;> rw [hsqz, hp] <;> rfl
  | sqbegin =>
    have hp : s.phase = .squeezing := (legalIn_sqbegin_iff _).1 hl
    show s.phase = _
    rw [hp]
    rfl
  | squeeze n =>
    have hp : s.phase = .squeezing := (legalIn_squeeze_iff n _).1 hl
    rw [effectState, squeezeToDout_eq, hp]
    rfl
  | digest fmt =>
    rw [effectState_digest, digestOut_eq]
    rcases (legalIn_digest_iff fmt _).1 hl with hp | hp <;> rw [hp] <;> rfl
  | permute =>
    show s.phase = _
    rcases (legalIn_permute_iff _).1 hl with hp | hp <;> rw [hp] <;> rfl
  | ldlane idx =>
    show s.phase = _
    rcases (legalIn_ldlane_iff idx _).1 hl with hp | hp <;> rw [hp] <;> rfl

/-! ### A command that its phase does not allow -/

/-- The state after a command in a phase that does not allow it (R200 cases 2 and 4): FAULTED stays as it is, and every
other phase raises Fault(CONTRACT). -/
def refuseCommand (s : State) : State :=
  { s with err := if s.phase = .faulted then s.err else .contract, phase := .faulted }

@[simp] theorem refuseCommand_phase (s : State) : (refuseCommand s).phase = .faulted := rfl

theorem refuseCommand_faulted {s : State} (hp : s.phase = .faulted) : refuseCommand s = s := by
  rw [refuseCommand, if_pos hp, ← hp]

theorem refuseCommand_contract {s : State} (hp : s.phase ≠ .faulted) : refuseCommand s = raiseFault .contract s := by
  rw [refuseCommand, if_neg hp]
  rfl

/-- ERR after a command in a phase that does not allow it names the reason (R189, R203). -/
theorem refuseCommand_err_code (s : State) :
    (refuseCommand s).err.code = if s.phase = .faulted then s.err.code else ErrCode.contract.code :=
  apply_ite ErrCode.code _ _ _

/-- A well-formed command in a phase that R203 does not list for it. -/
theorem exec_refused {i : Instr} {s : State} (hw : i.wellFormed = true) (hl : legalIn i s.phase = false) :
    exec i s = .next (refuseCommand s) := by
  by_cases hp : s.phase = .faulted
  · have hi : i ≠ .init := by
      rintro rfl
      simp [legalIn_init] at hl
    rw [refuseCommand_faulted hp, exec_faulted hi hp]
  · rw [refuseCommand_contract hp, exec_contract hw hp hl]

/-- Settles O31: a legal command runs its effect or is refused, and the table gives the phase of both. -/
theorem phaseTransitionTable : Obligations.PhaseTransitionTable := by
  intro i s hw hbuf hsqpos
  cases hl : legalIn i s.phase with
  | true => exact ⟨_, exec_runs hw hl hbuf hsqpos, effectState_phase hl⟩
  | false => exact ⟨_, exec_refused hw hl, (phaseAfter_of_not_legalIn hl).symm⟩

/-! ### The way out of FAULTED -/

/-- A well-formed command that answers leaves the phase of R130. -/
theorem exec_next_phase {i : Instr} {s t : State} (hw : i.wellFormed = true) (h : exec i s = .next t) :
    t.phase = phaseAfter i s.phase := by
  cases hl : legalIn i s.phase with
  | true =>
    rw [exec_eq_dispatch, dispatchCommand_runs hw hl] at h
    rw [effectResult_next h, effectState_phase hl]
  | false =>
    cases (exec_refused hw hl).symm.trans h
    exact (phaseAfter_of_not_legalIn hl).symm

/-- INIT is read from its one value only (R74). -/
theorem eq_of_decode_init {w : Word} (h : decode w = .ok .init) : w = 0x0000000001000000 :=
  (encodeOfDecode w .init h).2.symm

/-- In FAULTED every command value but INIT's is ignored (R206). -/
theorem outcome_faulted {w : Word} {s : State} (hw : w ≠ 0x0000000001000000) (hp : s.phase = .faulted) :
    outcome w s = .next s := by
  unfold outcome
  split
  · rw [rejectCommand, if_pos hp]
  next i hi =>
    refine exec_faulted ?_ hp
    rintro rfl
    exact hw (eq_of_decode_init hi)

theorem rejectCommand_phase (s : State) : (rejectCommand s).phase = .faulted := by
  unfold rejectCommand
  split_ifs with hp
  · exact hp
  · rfl

/-- Settles O34: the table leads to ABSORBING from another phase by INIT only, and in FAULTED another value is
ignored. -/
theorem onlyInitReturnsToAbsorbing : Obligations.OnlyInitReturnsToAbsorbing := by
  intro w s t h
  constructor
  · intro habs hne
    rcases outcome_next_cases h with ⟨i, hi, hexec⟩ | ⟨-, rfl⟩
    · have hphase := exec_next_phase (fields_of_decode hi).1 hexec
      obtain rfl := eq_init_of_phaseAfter_absorbing (hphase.symm.trans habs) hne
      exact eq_of_decode_init hi
    · rw [rejectCommand_phase] at habs
      cases habs
  · intro hp hchanged
    by_contra hw
    cases (outcome_faulted hw hp).symm.trans h
    exact hchanged.elim (· hp) (· rfl)

/-! ### INIT and SQBEGIN -/

/-- INIT, FINALIZE and SQBEGIN are alone with their opcodes (R74). -/
theorem eq_of_opc_eq {i j : Instr} (hi : i = .init ∨ i = .finalize ∨ i = .sqbegin) (h : j.opc = i.opc) : j = i := by
  revert h
  rcases hi with rfl | rfl | rfl <;> cases j <;> simp [Instr.opc]

/-- Settles O17: INIT's encoding, its effect in the phase it finds, and the values FAULTED ignores. -/
theorem initStartsASession : Obligations.InitStartsASession := by
  refine ⟨bareEncoding (i := .init) rfl fun _ => eq_of_opc_eq (.inl rfl), fun s => ?_,
    fun w s hw hp => outcome_faulted hw hp⟩
  rw [exec_eq_dispatch, dispatchCommand_runs rfl (legalIn_init _)]
  rfl

/-- SQBEGIN in SQUEEZING (R139). -/
theorem exec_sqbegin {s : State} (hp : s.phase = .squeezing) : exec .sqbegin s = .next { s with sqpos := 0 } := by
  rw [exec_eq_dispatch, dispatchCommand_runs rfl ((legalIn_sqbegin_iff _).2 hp)]
  rfl

/-- Settles O21: SQBEGIN's encoding and its dispatch in each phase. -/
theorem sqbeginRestartsTheCall : Obligations.SqbeginRestartsTheCall := by
  refine ⟨bareEncoding (i := .sqbegin) rfl fun _ => eq_of_opc_eq (.inr (.inr rfl)),
    fun s => ⟨exec_sqbegin, fun hp => ?_, exec_faulted nofun⟩⟩
  rcases hp with hp | hp <;> exact exec_contract rfl (by simp [hp]) (by rw [hp]; rfl)

end Sys2Proof.Machine
end

section
/-! PROOFS. ABSORB (R133), the padded block (R135), FINALIZE (R136, R137) and SQUEEZE (R140), each by its encoding, its
effect and the phases that refuse it. -/

namespace Sys2Proof.Machine

/-! ### ABSORB -/

/-- ABSORB and SQUEEZE carry a count of 1 to 8 in ARG (R72, R74). -/
theorem countEncoding {mk : Nat → Instr} (hmk : mk = .absorb ∨ mk = .squeeze) :
    ArgEncoding mk (encode (mk 0)) 1 8 := by
  rcases hmk with rfl | rfl
  all_goals
    refine argEncoding (by decide) (fun _ => rfl) (fun _ => rfl) (fun n => by simp [Instr.wellFormed]) fun j hj => ?_
    revert hj
    cases j <;> simp [Instr.opc]

/-- ABSORB N in ABSORBING absorbs the N low bytes of DIN (R133). -/
theorem exec_absorb {n : Nat} {s : State} (hn : 1 ≤ n ∧ n ≤ 8) (hp : s.phase = .absorbing) (hb : s.buf.length < 136) :
    exec (.absorb n) s = .next (absorbBytes (dinBytes n s.din) s) := by
  have hw : (Instr.absorb n).wellFormed = true := decide_eq_true hn
  rw [exec_eq_dispatch, dispatchCommand_runs hw ((legalIn_absorb_iff n _).2 hp)]
  exact withBuffer_runs hb

/-- At most a word of bytes advances BUFCNT modulo the block size (R133). -/
theorem absorbBytes_buf_length {bs : List Byte} {s : State} (hb : s.buf.length < 136) (hl : bs.length ≤ 8) :
    (absorbBytes bs s).buf.length = (s.buf.length + bs.length) % 136 := by
  rcases Nat.lt_or_ge (s.buf.length + bs.length) 136 with hwithin | hfull
  · rw [absorbBytes_within hwithin, List.length_append, Nat.mod_eq_of_lt hwithin]
  · rw [absorbBytes_completes hb hfull hl, List.length_drop, List.length_append]
    omega

/-- Settles O18: the bytes fit the buffer or complete its block, and every other phase refuses the command. -/
theorem absorbTakesTheLowBytes : Obligations.AbsorbTakesTheLowBytes := by
  refine ⟨countEncoding (.inl rfl), fun s n hpos hn => ?_⟩
  have hw : (Instr.absorb n).wellFormed = true := decide_eq_true ⟨hpos, hn⟩
  have hlen : (dinBytes n s.din).length = n := dinBytes_length n s.din
  refine ⟨fun hp hwithin => ?_, fun hp hb hfull => ?_, fun hp hb => ?_, fun hp => ?_, exec_faulted nofun⟩
  · rw [exec_absorb ⟨hpos, hn⟩ hp (by omega), absorbBytes_within (by omega)]
    rfl
  · rw [exec_absorb ⟨hpos, hn⟩ hp hb, absorbBytes_completes hb (by omega) (by omega)]
    rfl
  · refine ⟨_, exec_absorb ⟨hpos, hn⟩ hp hb, ?_⟩
    rw [absorbBytes_buf_length hb (by omega), hlen]
  · rcases hp with hp | hp <;> exact exec_contract hw (by simp [hp]) (by rw [hp]; rfl)

/-! ### FINALIZE -/

/-- Settles O19: `resize` extends up to 134 buffered bytes and 0x06 with zeros, and cuts 0x06 off after 135 (C3). -/
theorem padBlockBytes : Obligations.PadBlockBytes := by
  intro buf _
  refine ⟨padBlock_length buf, fun hshort => ?_, fun hfull => ?_⟩
  · have htake : (buf ++ [0x06]).take 135 = buf ++ [(0x06 : Byte)] := List.take_of_length_le (by simp; omega)
    have hzeros : 135 - min 135 (buf ++ [(0x06 : Byte)]).length = 134 - buf.length := by simp; omega
    simp only [padBlock, resize, Config.rate, Config.padFirst, Config.padLast, Nat.reduceSub, htake, hzeros, zeros]
  · have htake : (buf ++ [(0x06 : Byte)]).take 135 = buf := List.take_left' hfull
    have hzeros : 135 - min 135 (buf ++ [(0x06 : Byte)]).length = 0 := by simp; omega
    simp only [padBlock, resize, Config.rate, Config.padFirst, Config.padLast, Nat.reduceSub, htake, hzeros, zeros,
      List.replicate_zero, List.append_nil]

/-- FINALIZE, where it is legal, runs the finalize step (R137). -/
theorem exec_finalize {s : State} (hp : s.phase = .absorbing ∨ s.phase = .squeezing) (hb : s.buf.length < 136) :
    exec .finalize s = .next (finalizeOnce s) := by
  rw [exec_eq_dispatch, dispatchCommand_runs rfl ((legalIn_finalize_iff _).2 hp)]
  exact withBuffer_runs hb

/-- Settles O20: the finalize step runs in ABSORBING and does nothing in SQUEEZING; the other phases refuse the
command. -/
theorem finalizePadsOnce : Obligations.FinalizePadsOnce := by
  refine ⟨bareEncoding (i := .finalize) rfl fun _ => eq_of_opc_eq (.inr (.inl rfl)), fun s => ⟨fun hp hb => ?_,
    fun hp hb => ?_, fun hp => exec_contract rfl (by simp [hp]) (by rw [hp]; rfl), exec_faulted nofun⟩⟩
  · rw [exec_finalize (.inl hp) hb, finalizeOnce_absorbing hp]
    rfl
  · rw [exec_finalize (.inr hp) hb, finalizeOnce_finalized (by simp [hp])]

/-! ### SQUEEZE -/

/-- Settles O22: the bytes lie inside the block or cross its end, and every other phase refuses the command. -/
theorem squeezeDeliversTheNextBytes : Obligations.SqueezeDeliversTheNextBytes := by
  refine ⟨countEncoding (.inr rfl), fun s n hpos hn => ?_⟩
  have hw : (Instr.squeeze n).wellFormed = true := decide_eq_true ⟨hpos, hn⟩
  refine ⟨fun hp hwithin => ?_, fun hp hq hcross => ?_, fun hp => ?_, exec_faulted nofun⟩
  · rw [exec_squeeze ⟨hpos, hn⟩ hp (by omega), squeezeToDout, squeezeBytes_within hwithin]
    rfl
  · rw [exec_squeeze ⟨hpos, hn⟩ hp hq, squeezeToDout, squeezeBytes_crosses hq hcross (by omega)]
    rfl
  · rcases hp with hp | hp <;> exact exec_contract hw (by simp [hp]) (by rw [hp]; rfl)

end Sys2Proof.Machine
end

section
/-! PROOFS. ABSORB_BYTES and UPDATE (R134, R181, R182): every cut into chunks absorbs the whole sequence, and outside
ABSORBING the run has failed (R189). -/

namespace Sys2Proof.Machine

/-! ### Chunks of a byte sequence -/

/-- The first `n` pieces of `c` bytes are the first `c * n` bytes. -/
theorem flatMap_pieces {α : Type} (m : List α) (c n : Nat) :
    ((List.range n).flatMap fun k => (m.drop (c * k)).take c) = m.take (c * n) := by
  induction n with
  | zero => simp
  | succ n ih => rw [List.range_succ, List.flatMap_append, ih, List.flatMap_singleton, Nat.mul_succ, List.take_add]

/-- The chunks of ABSORB_BYTES: up to 8 bytes at offsets 0, 8, 16, … (R181). -/
def wordChunks (m : List Byte) : List (List Byte) :=
  (List.range ((m.length + 7) / 8)).map fun k => (m.drop (8 * k)).take 8

theorem absorbLines_eq (m : List Byte) : absorbLines m = (wordChunks m).flatMap absorbChunk :=
  (List.flatMap_map ..).symm

theorem wordChunks_flatten (m : List Byte) : (wordChunks m).flatten = m := by
  rw [wordChunks, ← List.flatMap_def, flatMap_pieces, List.take_of_length_le (by omega)]

/-- A chunk is what one ABSORB takes: 1 to 8 bytes (R72, R181). -/
abbrev ChunkSized (c : List Byte) : Prop := 1 ≤ c.length ∧ c.length ≤ 8

theorem wordChunks_sized (m : List Byte) : ∀ c ∈ wordChunks m, ChunkSized c := by
  intro c hc
  obtain ⟨k, hk, rfl⟩ := List.mem_map.1 hc
  rw [List.mem_range] at hk
  rw [ChunkSized, List.length_take, List.length_drop]
  omega

/-- ABSORB_BYTES of at least one byte ends with the rest from the last multiple of 8 on (R181). -/
theorem wordChunks_getLast? {m : List Byte} (hm : m ≠ []) :
    (wordChunks m).getLast? = some (m.drop (8 * ((m.length - 1) / 8))) := by
  have hlen : 0 < m.length := List.length_pos_of_ne_nil hm
  have hcount : (m.length + 7) / 8 = (m.length - 1) / 8 + 1 := by omega
  rw [wordChunks, hcount, List.range_succ, List.map_append, List.map_singleton, List.getLast?_concat,
    List.take_of_length_le]
  rw [List.length_drop]
  omega

/-- DIN after the WR DIN lines of the chunks, from the value `v` (R181). -/
def dinAfter (chunks : List (List Byte)) (v : Word) : Word := (chunks.getLast?.map packLE).getD v

theorem dinAfter_cons (c : List Byte) (cs : List (List Byte)) (v : Word) :
    dinAfter (c :: cs) v = dinAfter cs (packLE c) := by
  rw [dinAfter, dinAfter, List.getLast?_cons, Option.map_some, Option.getD_some, Option.getD_map]

/-- ABSORB takes from DIN the bytes that WR DIN packed (R73, R181). -/
theorem dinBytes_packLE {c : List Byte} (hc : c.length ≤ 8) : dinBytes c.length (packLE c) = c := by
  refine List.ext_getElem (dinBytes_length _ _) fun k _ hk => ?_
  simp [dinBytes, byteOf_packLE c (show k < 8 by omega), hk]

/-! ### One chunk -/

/-- What a chunk's lines add to a run, where its ABSORB leaves the state `t` (R181). -/
def chunkRun (c : List Byte) (t : State) : Run := ⟨[.issued (.absorb c.length), .status (statusWord t)], [], t⟩

/-- The lines of a chunk, where its ABSORB answers (R181). -/
theorem runLines_absorbChunk {c : List Byte} {s t : State}
    (h : exec (.absorb c.length) { s with din := packLE c } = .next t) :
    runLines (absorbChunk c) s = .next (chunkRun c t) :=
  runLines_cons (HostLine.effect_wrDin (packLE c) s)
    (runLines_cons (line := .cmd (.absorb c.length)) h (runLines_nil t))

/-- A chunk's POLL shows a failure exactly where its ABSORB leaves FAULTED (R189). -/
theorem failureOf_chunkRun (c : List Byte) (t : State) :
    failureOf (chunkRun c t).seen = if t.phase = .faulted then some t.err.code else none :=
  failureOf_status t []

theorem noDigest_chunkRun (c : List Byte) (t : State) : NoDigest (chunkRun c t).seen := by
  simp [NoDigest, chunkRun, isDigest]

/-- The byte loop neither reads nor writes DIN (R132). -/
theorem absorbBytes_withDin (v : Word) (bs : List Byte) (s : State) :
    absorbBytes bs { s with din := v } = { absorbBytes bs s with din := v } := by
  induction bs generalizing s with
  | nil => rfl
  | cons b bs ih =>
    rw [absorbBytes_cons, absorbBytes_cons, ← ih]
    congr 1
    unfold absorbByte
    split <;> rfl

/-- In ABSORBING a chunk is absorbed (R181). -/
theorem runLines_absorbChunk_absorbing {c : List Byte} {s : State} (hc : ChunkSized c) (hp : s.phase = .absorbing)
    (hb : s.buf.length < 136) :
    runLines (absorbChunk c) s = .next (chunkRun c { absorbBytes c s with din := packLE c }) := by
  have habsorb := exec_absorb (s := { s with din := packLE c }) hc hp hb
  rw [dinBytes_packLE hc.2, absorbBytes_withDin] at habsorb
  exact runLines_absorbChunk habsorb

/-- In every other phase a chunk's ABSORB is refused (R182, R203). -/
theorem runLines_absorbChunk_refused {c : List Byte} {s : State} (hc : ChunkSized c) (hp : s.phase ≠ .absorbing) :
    runLines (absorbChunk c) s = .next (chunkRun c { refuseCommand s with din := packLE c }) := by
  have hl : legalIn (.absorb c.length) s.phase = false :=
    Bool.eq_false_iff.2 fun h => hp ((legalIn_absorb_iff _ _).1 h)
  exact runLines_absorbChunk (exec_refused (s := { s with din := packLE c }) (decide_eq_true hc) hl)

/-! ### A cut into chunks -/

/-- In ABSORBING the chunks absorb their concatenation and leave the run's verdict open (R134, R189). -/
theorem runLines_chunks_absorbing {chunks : List (List Byte)} {s : State} (hc : ∀ c ∈ chunks, ChunkSized c)
    (hp : s.phase = .absorbing) (hb : s.buf.length < 136) :
    ∃ r, runLines (chunks.flatMap absorbChunk) s = .next r ∧ r.values = [] ∧ verdict r.seen = .unfinished ∧
      r.final = { absorbBytes chunks.flatten s with din := dinAfter chunks s.din } := by
  induction chunks generalizing s with
  | nil => exact ⟨_, rfl, rfl, rfl, rfl⟩
  | cons c cs ih =>
    rw [List.forall_mem_cons] at hc
    have hfirst := runLines_absorbChunk_absorbing hc.1 hp hb
    have hphase : (absorbBytes c s).phase = .absorbing := (absorbBytes_phase c s).trans hp
    obtain ⟨r, hr, hvalues, hverdict, hfinal⟩ :=
      ih (s := { absorbBytes c s with din := packLE c }) hc.2 hphase (absorbBytes_buf_lt hb c)
    refine ⟨_, runLines_append hfirst hr, hvalues, ?_, ?_⟩
    · have hopen : failureOf (chunkRun c { absorbBytes c s with din := packLE c }).seen = none := by
        rw [failureOf_chunkRun, if_neg (by simp [hphase])]
      rw [Run.append_seen, verdict_append_open hopen (noDigest_chunkRun c _), hverdict]
    · rw [Run.append_final, hfinal, absorbBytes_withDin, ← absorbBytes_append, ← List.flatten_cons, dinAfter_cons]

/-- In FAULTED the chunks only write DIN (R206). -/
theorem runLines_chunks_faulted {chunks : List (List Byte)} {s : State} (hc : ∀ c ∈ chunks, ChunkSized c)
    (hp : s.phase = .faulted) :
    ∃ r, runLines (chunks.flatMap absorbChunk) s = .next r ∧ r.values = [] ∧
      r.final = { s with din := dinAfter chunks s.din } := by
  induction chunks generalizing s with
  | nil => exact ⟨_, rfl, rfl, rfl⟩
  | cons c cs ih =>
    rw [List.forall_mem_cons] at hc
    have hfirst := runLines_absorbChunk_refused hc.1 (s := s) (by simp [hp])
    rw [refuseCommand_faulted hp] at hfirst
    obtain ⟨r, hr, hvalues, hfinal⟩ := ih (s := { s with din := packLE c }) hc.2 hp
    refine ⟨_, runLines_append hfirst hr, hvalues, ?_⟩
    rw [Run.append_final, hfinal, dinAfter_cons]

/-- Outside ABSORBING the first chunk fails the run, and the chunks after it only write DIN (R182, R189). -/
theorem runLines_chunks_refused {chunks : List (List Byte)} {s : State} (hne : chunks ≠ [])
    (hc : ∀ c ∈ chunks, ChunkSized c) (hp : s.phase ≠ .absorbing) :
    ∃ r, runLines (chunks.flatMap absorbChunk) s = .next r ∧ r.values = [] ∧
      verdict r.seen = .failed (refuseCommand s).err.code ∧
      r.final = { refuseCommand s with din := dinAfter chunks s.din } := by
  cases chunks with
  | nil => exact absurd rfl hne
  | cons c cs =>
    rw [List.forall_mem_cons] at hc
    have hfirst := runLines_absorbChunk_refused hc.1 hp
    obtain ⟨r, hr, hvalues, hfinal⟩ :=
      runLines_chunks_faulted (s := { refuseCommand s with din := packLE c }) hc.2 rfl
    refine ⟨_, runLines_append hfirst hr, hvalues, ?_, ?_⟩
    · exact verdict_append_failed ((failureOf_chunkRun c _).trans (if_pos rfl)) r.seen
    · rw [Run.append_final, hfinal, dinAfter_cons]

/-- Settles O56: every cut absorbs chunk by chunk, ABSORB_BYTES is the cut at the multiples of 8, and outside ABSORBING
its first chunk is refused. -/
theorem chunksAbsorbTheSequence : Obligations.ChunksAbsorbTheSequence := by
  refine ⟨fun chunks s hc hp hb => runLines_chunks_absorbing hc hp hb,
    fun m => ⟨wordChunks m, wordChunks_sized m, wordChunks_flatten m, absorbLines_eq m⟩,
    absorbBytes_append, fun _ => rfl, fun m s hm hp => ?_⟩
  have hlast := wordChunks_getLast? hm
  have hne : wordChunks m ≠ [] := by
    intro hnil
    rw [hnil] at hlast
    cases hlast
  obtain ⟨r, hr, hvalues, hverdict, hfinal⟩ := runLines_chunks_refused hne (wordChunks_sized m) hp
  rw [refuseCommand_err_code] at hverdict
  refine ⟨r, (congrArg (runLines · s) (absorbLines_eq m)).trans hr, hvalues, hverdict, ?_⟩
  rw [hfinal, dinAfter, hlast]
  rfl

end Sys2Proof.Machine
end

section
/-! PROOFS. SQUEEZE_CALL (R141, R184): the bytes observed are the front of the output stream, and outside SQUEEZING the
run has failed (R189). -/

namespace Sys2Proof.Machine

/-! ### The output stream (R141) -/

theorem outputStream_succ (k : Nat) (l : Lanes) :
    outputStream (k + 1) l = outputStream k l ++ rateBytes (permTimes k l) := by
  rw [outputStream, List.range_succ, List.flatMap_append, List.flatMap_singleton]
  rfl

theorem outputStream_length (k : Nat) (l : Lanes) : (outputStream k l).length = 136 * k := by
  induction k with
  | zero => rfl
  | succ k ih => rw [outputStream_succ, List.length_append, ih, rateBytes_length, Nat.mul_succ]

/-- A squeeze from the front of a block, inside it (R138). -/
theorem squeezeBytes_blockFront {n : Nat} (hn : n ≤ 136) (s : State) :
    squeezeBytes n { s with sqpos := 0 } = ((rateBytes s.lanes).take n, { s with sqpos := n }) := by
  rw [squeezeBytes_within (by simpa using hn)]
  simp only [rateBytes, ← List.map_take, List.take_range, Nat.zero_add, Nat.min_eq_left hn]

/-- A squeeze from the end of a block starts with the lazy permutation (R138). -/
theorem squeezeBytes_blockEnd {n : Nat} (hn : 1 ≤ n) (s : State) :
    squeezeBytes n { s with sqpos := 136 } = squeezeBytes n { s with lanes := perm s.lanes, sqpos := 0 } := by
  obtain ⟨k, rfl⟩ := Nat.exists_eq_add_of_le' hn
  rw [squeezeBytes, squeezeBytes]
  rfl

/-- A call's squeeze delivers `k` whole blocks of the stream and 1 to 136 bytes of the next, so it has permuted `k`
times (R141). -/
theorem squeezeBytes_stream (k : Nat) {m : Nat} (hpos : 1 ≤ m) (hm : m ≤ 136) (s : State) :
    squeezeBytes (136 * k + m) { s with sqpos := 0 } =
      ((outputStream (k + 1) s.lanes).take (136 * k + m), { s with lanes := permTimes k s.lanes, sqpos := m }) := by
  induction k generalizing m with
  | zero =>
    rw [Nat.mul_zero, Nat.zero_add, squeezeBytes_blockFront hm]
    rfl
  | succ k ih =>
    have hlen := outputStream_length (k + 1) s.lanes
    have hblocks := ih (m := 136) (by decide) (Nat.le_refl _)
    rw [← Nat.mul_succ, List.take_of_length_le (by omega)] at hblocks
    have hnext := squeezeBytes_blockEnd hpos { s with lanes := permTimes k s.lanes }
    rw [squeezeBytes_blockFront hm { s with lanes := perm (permTimes k s.lanes) }] at hnext
    rw [squeezeBytes_add, hblocks, hnext, outputStream_succ (k + 1), ← hlen, List.take_length_add_append]
    rfl

/-! ### SQUEEZE N and RD DOUT -/

/-- One SQUEEZE of a call and the read of what it delivered (R184). -/
def squeezeRead (n : Nat) : List HostLine := [.cmd (.squeeze n), .rd .dout]

/-- The lines of a call after SQBEGIN (R184). -/
def squeezeReads (n : Nat) : List HostLine :=
  (List.range ((n + 7) / 8)).flatMap fun k => squeezeRead (min 8 (n - 8 * k))

theorem squeezeCallLines_eq {n : Nat} (hn : 1 ≤ n) : squeezeCallLines n = .cmd .sqbegin :: squeezeReads n :=
  if_neg (by omega)

/-- A call reads up to 8 bytes, then the rest. -/
theorem squeezeReads_eq {n : Nat} (hn : 1 ≤ n) : squeezeReads n = squeezeRead (min 8 n) ++ squeezeReads (n - 8) := by
  have hcount : (n + 7) / 8 = (n - 8 + 7) / 8 + 1 := by omega
  have hrest : ∀ k, n - 8 * (k + 1) = n - 8 - 8 * k := fun k => by omega
  rw [squeezeReads, squeezeReads, hcount, List.range_succ_eq_map, List.flatMap_cons, List.flatMap_map]
  simp only [hrest, Nat.mul_zero, Nat.sub_zero]

/-- `s` with `v` delivered to DOUT and read by the host (R140, R184). -/
def delivered (v : Word) (s : State) : State := { s with dout := v, rdata := v }

theorem delivered_phase (v : Word) (s : State) : (delivered v s).phase = s.phase := rfl

theorem delivered_sqpos (v : Word) (s : State) : (delivered v s).sqpos = s.sqpos := rfl

theorem delivered_busy (v : Word) (s : State) : (delivered v s).busy = s.busy := rfl

/-- The squeeze loop neither reads nor writes DOUT and the value last read (R138). -/
theorem squeezeBytes_delivered (v : Word) (n : Nat) (s : State) :
    squeezeBytes n (delivered v s) = ((squeezeBytes n s).1, delivered v (squeezeBytes n s).2) := by
  induction n generalizing s with
  | zero => rfl
  | succ n ih =>
    have hbyte : squeezeByte (delivered v s) = ((squeezeByte s).1, delivered v (squeezeByte s).2) := by
      by_cases hend : s.sqpos = Config.rate <;> simp only [squeezeByte, nextBlock, delivered, hend, if_true, if_false]
    rw [squeezeBytes, hbyte, ih]
    rfl

/-- What SQUEEZE N and RD DOUT add to a run, from the state `s` in SQUEEZING (R184). -/
def squeezeReadRun (n : Nat) (s : State) : Run :=
  ⟨[.issued (.squeeze n), .status (statusWord (squeezeToDout n s))], [doutOf (squeezeBytes n s).1],
    delivered (doutOf (squeezeBytes n s).1) (squeezeBytes n s).2⟩

/-- SQUEEZE N and RD DOUT in SQUEEZING (R140, R184). -/
theorem runLines_squeezeRead {n : Nat} {s : State} (hn : 1 ≤ n ∧ n ≤ 8) (hp : s.phase = .squeezing)
    (hq : s.sqpos ≤ 136) (hb : s.busy = false) : runLines (squeezeRead n) s = .next (squeezeReadRun n s) := by
  have hbusy : (squeezeToDout n s).busy = false := by
    rw [squeezeToDout_eq]
    exact hb
  have hread : (HostLine.rd .dout).effect (squeezeToDout n s) =
      .next (delivered (doutOf (squeezeBytes n s).1) (squeezeBytes n s).2) := by
    rw [HostLine.effect_rd, hostRead_stated (.inl hbusy)]
    rfl
  exact runLines_cons (line := .cmd (.squeeze n)) (exec_squeeze hn hp hq) (runLines_cons hread (runLines_nil _))

theorem squeezeBytes_phase (n : Nat) (s : State) : (squeezeBytes n s).2.phase = s.phase := by rw [squeezeBytes_eq]

theorem squeezeBytes_busy (n : Nat) (s : State) : (squeezeBytes n s).2.busy = s.busy := by
  rw [squeezeBytes_eq]
  rfl

/-- A squeeze in SQUEEZING shows no failure (R189). -/
theorem failureOf_squeezeReadRun {s : State} (hp : s.phase = .squeezing) (n : Nat) :
    failureOf (squeezeReadRun n s).seen = none := by
  have hphase : (squeezeToDout n s).phase = .squeezing := (squeezeBytes_phase n s).trans hp
  refine (failureOf_status _ []).trans (if_neg ?_)
  simp [hphase]

/-- The host reads the squeezed bytes from DOUT, zero bytes above them (R73, R184). -/
theorem bytesOfWords_doutOf {bs : List Byte} (h : bs.length ≤ 8) :
    bytesOfWords [doutOf bs] = bs ++ List.replicate (8 - bs.length) 0 := by
  rw [bytesOfWords, List.flatMap_singleton]
  refine List.ext_getElem (by simp; omega) fun k hk _ => ?_
  have hk8 : k < 8 := by simpa using hk
  rw [List.getElem_map, List.getElem_range, doutOf, byteOf_packLE bs hk8, List.getElem_append]
  split_ifs with hin
  · exact List.getD_eq_getElem _ _ hin
  · rw [List.getElem_replicate]
    exact List.getD_eq_default _ _ (Nat.le_of_not_lt hin)

/-- A chunk of a call reads its bytes, zero bytes above them. -/
theorem bytesOfWords_squeezeReadRun {n : Nat} (hn : n ≤ 8) (s : State) :
    bytesOfWords (squeezeReadRun n s).values = (squeezeBytes n s).1 ++ List.replicate (8 - n) 0 := by
  have hlen : (squeezeBytes n s).1.length = n := squeezeBytes_length n s
  rw [squeezeReadRun, bytesOfWords_doutOf (by omega), hlen]

theorem bytesOfWords_append (vs ws : List Word) : bytesOfWords (vs ++ ws) = bytesOfWords vs ++ bytesOfWords ws :=
  List.flatMap_append

/-! ### A whole call -/

/-- The lines of a call after SQBEGIN read the next `n` bytes in order, with no failure (R184). -/
theorem runLines_squeezeReads {n : Nat} {s : State} (hn : 1 ≤ n) (hp : s.phase = .squeezing) (hq : s.sqpos ≤ 136)
    (hb : s.busy = false) :
    ∃ r v, runLines (squeezeReads n) s = .next r ∧ (bytesOfWords r.values).take n = (squeezeBytes n s).1 ∧
      failureOf r.seen = none ∧ r.final = delivered v (squeezeBytes n s).2 := by
  induction n using Nat.strong_induction_on generalizing s with
  | _ n ih =>
  rw [squeezeReads_eq hn]
  rcases Nat.lt_or_ge 8 n with hmore | hlast
  · have hfirst := runLines_squeezeRead (n := 8) (by decide) hp hq hb
    have hlen : (squeezeBytes 8 s).1.length = 8 := squeezeBytes_length 8 s
    obtain ⟨r, v, hr, hbytes, hseen, hfinal⟩ := ih (n - 8) (by omega) (s := (squeezeReadRun 8 s).final) (by omega)
      (by rw [squeezeReadRun, delivered_phase, squeezeBytes_phase, hp])
      (by rw [squeezeReadRun, delivered_sqpos]; exact squeezeBytes_sqpos_le hq 8)
      (by rw [squeezeReadRun, delivered_busy, squeezeBytes_busy, hb])
    rw [squeezeReadRun, squeezeBytes_delivered] at hbytes hfinal
    have hsplit := squeezeBytes_add 8 (n - 8) s
    rw [Nat.add_sub_cancel' (by omega)] at hsplit
    rw [Nat.min_eq_left (by omega), hsplit]
    refine ⟨_, v, runLines_append hfirst hr, ?_, ?_, hfinal⟩
    · rw [Run.append_values, bytesOfWords_append, bytesOfWords_squeezeReadRun (by decide), Nat.sub_self,
        List.replicate_zero, List.append_nil, List.take_append, hlen, hbytes, List.take_of_length_le (by omega)]
    · rw [Run.append_seen, failureOf_append, failureOf_squeezeReadRun hp, hseen]
      rfl
  · have hnone : squeezeReads (n - 8) = [] := by rw [Nat.sub_eq_zero_of_le hlast]; rfl
    rw [Nat.min_eq_right hlast, hnone, List.append_nil]
    refine ⟨_, _, runLines_squeezeRead ⟨hn, hlast⟩ hp hq hb, ?_, failureOf_squeezeReadRun hp n, rfl⟩
    rw [bytesOfWords_squeezeReadRun hlast, List.take_left' (squeezeBytes_length n s)]

/-- In FAULTED lines without INIT run to their end (R206). -/
theorem runLines_faulted {lines : List HostLine} {s : State} (hi : .cmd .init ∉ lines) (hp : s.phase = .faulted) :
    ∃ r, runLines lines s = .next r := by
  induction lines generalizing s with
  | nil => exact ⟨_, rfl⟩
  | cons line rest ih =>
    rw [List.mem_cons, not_or] at hi
    obtain ⟨hline, hrest⟩ := hi
    obtain ⟨t, ht, htp⟩ : ∃ t, line.effect s = .next t ∧ t.phase = .faulted := by
      cases line with
      | cmd i => exact ⟨s, exec_faulted (by rintro rfl; exact hline rfl) hp, hp⟩
      | wrDin v => exact ⟨_, rfl, hp⟩
      | rd r =>
        refine ⟨_, rfl, ?_⟩
        unfold hostRead
        split_ifs <;> exact hp
    obtain ⟨r, hr⟩ := ih hrest htp
    exact ⟨_, runLines_cons ht hr⟩

theorem init_notMem_squeezeReads (n : Nat) : HostLine.cmd .init ∉ squeezeReads n := by
  simp [squeezeReads, squeezeRead]

/-- A SQUEEZE_CALL whose run shows no failure observes the bytes it read (R184, R189). -/
theorem squeezeCall_observed {n : Nat} {s : State} {r : Run} {bytes : List Byte}
    (hr : runLines (squeezeCallLines n) s = .next r) (hseen : failureOf r.seen = none)
    (hbytes : (bytesOfWords r.values).take n = bytes) : squeezeCall n s = .next (some bytes, r) := by
  rw [squeezeCall, hr, andThen_next, Run.squeezeObservation, hseen, hbytes]

/-- A SQUEEZE_CALL whose run has failed observes nothing (R189). -/
theorem squeezeCall_failed {n : Nat} {s : State} {r : Run} {err : BitVec 4}
    (hr : runLines (squeezeCallLines n) s = .next r) (hseen : failureOf r.seen = some err) :
    squeezeCall n s = .next (none, r) := by
  rw [squeezeCall, hr, andThen_next, Run.squeezeObservation, hseen]

/-- In SQUEEZING, SQBEGIN puts the cursor at the front of the current state and the call squeezes from there (R184). -/
theorem squeezeCall_squeezing {n : Nat} {s : State} (hn : 1 ≤ n) (hp : s.phase = .squeezing) (hb : s.busy = false) :
    ∃ r v, squeezeCall n s = .next (some (squeezeBytes n { s with sqpos := 0 }).1, r) ∧
      r.final = delivered v (squeezeBytes n { s with sqpos := 0 }).2 := by
  obtain ⟨r, v, hr, hbytes, hseen, hfinal⟩ :=
    runLines_squeezeReads (s := { s with sqpos := 0 }) hn hp (Nat.zero_le _) hb
  have hrun := runLines_cons (line := .cmd .sqbegin) (exec_sqbegin hp) hr
  rw [← squeezeCallLines_eq hn] at hrun
  have hopen : failureOf (.status (statusWord { s with sqpos := 0 }) :: r.seen) = none := by
    rw [failureOf_status, hseen]
    exact if_neg (by simp [hp])
  exact ⟨_, v, squeezeCall_observed hrun hopen hbytes, hfinal⟩

/-- In every other phase SQBEGIN is refused, and the call has failed (R189, R203). -/
theorem squeezeCall_refused {n : Nat} {s : State} (hn : 1 ≤ n) (hp : s.phase ≠ .squeezing) :
    ∃ r, squeezeCall n s = .next (none, r) ∧ verdict r.seen = .failed (refuseCommand s).err.code := by
  have hl : legalIn .sqbegin s.phase = false := Bool.eq_false_iff.2 fun h => hp ((legalIn_sqbegin_iff _).1 h)
  obtain ⟨r, hr⟩ := runLines_faulted (init_notMem_squeezeReads n) (refuseCommand_phase s)
  have hrun := runLines_cons (line := .cmd .sqbegin) (exec_refused rfl hl) hr
  rw [← squeezeCallLines_eq hn] at hrun
  have hfailed : failureOf (.status (statusWord (refuseCommand s)) :: r.seen) = some (refuseCommand s).err.code :=
    (failureOf_status _ _).trans (if_pos rfl)
  exact ⟨_, squeezeCall_failed hrun hfailed, verdict_eq_failed.2 hfailed⟩

/-- Settles O57: the call squeezes the stream from the front of the current state, and outside SQUEEZING it is
refused. -/
theorem squeezeCallReturnsTheStream : Obligations.SqueezeCallReturnsTheStream := by
  refine ⟨fun s => squeezeCall_observed (n := 0) (runLines_nil s) rfl rfl,
    fun n s hn hb => ⟨fun hp => ?_, fun hp => ?_⟩⟩
  · have hstream := squeezeBytes_stream ((n - 1) / 136) (m := n - 136 * ((n - 1) / 136)) (by omega) (by omega) s
    rw [Nat.add_sub_cancel' (by omega)] at hstream
    obtain ⟨r, v, hcall, hfinal⟩ := squeezeCall_squeezing hn hp hb
    rw [hstream] at hcall hfinal
    refine ⟨r, hcall, ?_⟩
    rw [hfinal]
    rfl
  · rw [← refuseCommand_err_code]
    exact squeezeCall_refused hn hp

end Sys2Proof.Machine
end

section
/-! PROOFS. The formatter's strings (R162 to R168): hex characters one by one, and the shape of each format. -/

namespace Sys2Proof.Machine

/-! ### Hex characters (R162) -/

/-- Byte k of the raw bytes gives the characters 2k and 2k + 1, high nibble first. -/
theorem hexEncode_getD {raw : List Byte} {k : Nat} (hk : k < raw.length) :
    (hexEncode raw).getD (2 * k) 0 = hexDigit ((raw.getD k 0).toNat / 16) ∧
    (hexEncode raw).getD (2 * k + 1) 0 = hexDigit ((raw.getD k 0).toNat % 16) := by
  induction raw generalizing k with
  | nil => cases hk
  | cons b bs ih =>
    cases k with
    | zero => exact ⟨rfl, rfl⟩
    | succ k => exact ih (Nat.lt_of_succ_lt_succ hk)

/-- The high nibble of a byte as a number. -/
theorem highNibble_toNat (b : Byte) : (b >>> 4).toNat = b.toNat / 16 := by
  rw [BitVec.toNat_ushiftRight, Nat.shiftRight_eq_div_pow]

/-- The low nibble of a byte as a number. -/
theorem lowNibble_toNat (b : Byte) : (b &&& 0x0F).toNat = b.toNat % 16 := by
  rw [BitVec.toNat_and]
  exact Nat.and_two_pow_sub_one_eq_mod b.toNat 4

/-- The ASCII codes of the sixteen digits (R162, R167). -/
def hexCodes : List Nat :=
  [0x30, 0x31, 0x32, 0x33, 0x34, 0x35, 0x36, 0x37, 0x38, 0x39, 0x61, 0x62, 0x63, 0x64, 0x65, 0x66]

theorem hexDigit_eq_cast : ∀ d < 16, hexDigit d = (hexCodes.getD d 0 : Nat) := by decide

/-- The same codes, the table taken as bytes. -/
theorem hexDigit_eq_getD : ∀ d < 16, hexDigit d = (hexCodes.map Nat.cast).getD d 0 := by decide

/-- Settles O25: each byte gives its two digits in order, and a digit's code is the table's. -/
theorem hexEncodeDigits : Obligations.HexEncodeDigits := by
  refine fun raw => ⟨hexEncode_length raw, fun k hk => ?_⟩
  obtain ⟨hhigh, hlow⟩ := hexEncode_getD hk
  have hbyte : (raw.getD k 0).toNat < 256 := (raw.getD k 0).isLt
  rw [hhigh, hlow, highNibble_toNat, lowNibble_toNat]
  exact ⟨hexDigit_eq_cast _ (Nat.div_lt_of_lt_mul hbyte), hexDigit_eq_getD _ (Nat.mod_lt _ (by decide))⟩

/-! ### Uuid (R164) -/

/-- Settles O26: `IDN45-`, the groups and the two dashes lie at fixed offsets. -/
theorem uuidGroups : Obligations.UuidGroups := by
  intro raw hraw
  have hlen : (hexEncode raw).length = 24 := by rw [hexEncode_length, hraw]
  have hgroup : ((hexEncode raw).drop 16).take 8 = (hexEncode raw).drop 16 := List.take_of_length_le (by simp [hlen])
  refine ⟨formatString_length (fmt := .uuid) hraw, rfl, ?_⟩
  simp [formatString, formatUuid, uuidPrefix, charDash, List.drop_append, List.drop_of_length_le, hlen, hgroup]

/-! ### Short (R165) -/

/-- The colon's index is read from the low nibble of raw[5]. -/
theorem colonIndex_hexEncode {raw : List Byte} (hraw : raw.length = 6) :
    colonIndex (hexEncode raw) = (raw.getD 5 0 &&& 0x0F).toNat % 10 + 1 := by
  obtain ⟨-, hlow⟩ := hexEncode_getD (raw := raw) (k := 5) (by omega)
  rw [colonIndex, hlow, hexValue_hexDigit _ (Nat.mod_lt _ (by decide)), lowNibble_toNat]

/-- A character put into a list at index p stands at p, and taking it out gives the list back. -/
theorem insert_getD_and_remove {α : Type} {l : List α} {p : Nat} (hp : p ≤ l.length) (c d : α) :
    (l.take p ++ [c] ++ l.drop p).getD p d = c ∧
    (l.take p ++ [c] ++ l.drop p).take p ++ (l.take p ++ [c] ++ l.drop p).drop (p + 1) = l := by
  have htail : (l.take p).drop (p + 1) = [] := List.drop_of_length_le (by simp)
  simp [List.drop_append, hp, htail]

/-- Settles O27: the colon splits the 11 body characters at an index inside them. -/
theorem shortColonPosition : Obligations.ShortColonPosition := by
  intro raw hraw
  dsimp only
  rw [← colonIndex_hexEncode hraw]
  have hp : colonIndex (hexEncode raw) ≤ 10 := Nat.mod_lt _ (by decide)
  have hbody : ((hexEncode raw).take 11).length = 11 := by rw [List.length_take, hexEncode_length, hraw]; rfl
  exact ⟨Nat.le_add_left 1 _, hp, formatString_length (fmt := .short) hraw,
    insert_getD_and_remove (by omega) charColon 0⟩

/-! ### The three shapes (R168) -/

/-- No part of a hex string holds a colon. -/
theorem colon_notMem_of_sublist {raw l : List Byte} (h : l.Sublist (hexEncode raw)) : (0x3A : Byte) ∉ l :=
  fun hmem => (mem_hexEncode (h.mem hmem)).1 rfl

/-- A Uuid string has no colon: neither have `IDN45-`, its dashes and its groups (R164). -/
theorem formatUuid_noColon (raw : List Byte) : 0x3A ∉ formatUuid (hexEncode raw) := by
  have hgroup (n : Nat) : (0x3A : Byte) ∉ ((hexEncode raw).drop n).take 8 :=
    colon_notMem_of_sublist ((List.take_sublist 8 _).trans (List.drop_sublist n _))
  have hfirst : (0x3A : Byte) ∉ (hexEncode raw).take 8 := hgroup 0
  simp only [formatUuid, List.mem_append, hfirst, hgroup, or_false]
  decide

/-- A Short string has the one colon put into its body (R165). -/
theorem formatShort_oneColon (raw : List Byte) : (formatShort (hexEncode raw)).count 0x3A = 1 := by
  have hbody : ((hexEncode raw).take 11).Sublist (hexEncode raw) := List.take_sublist 11 _
  have hfront := colon_notMem_of_sublist ((List.take_sublist (colonIndex (hexEncode raw)) _).trans hbody)
  have hback := colon_notMem_of_sublist ((List.drop_sublist (colonIndex (hexEncode raw)) _).trans hbody)
  rw [formatShort, List.count_append, List.count_append, List.count_eq_zero.2 hfront, List.count_eq_zero.2 hback]
  rfl

/-- Settles O28: no hex character is a colon or a dash, so each of those is the format's own. -/
theorem shapesAreDisjoint : Obligations.ShapesAreDisjoint := by
  intro fmt raw hraw
  have hlen := formatString_length hraw
  refine ⟨?_, ?_, ?_⟩
  · rintro rfl
    exact ⟨rfl, hlen, fun h => (mem_hexEncode h).1 rfl, fun h => (mem_hexEncode h).2 rfl⟩
  · rintro rfl
    exact ⟨hlen, rfl, formatUuid_noColon raw⟩
  · rintro rfl
    exact ⟨hlen, formatShort_oneColon raw⟩

end Sys2Proof.Machine
end

section
/-! PROOFS. DIGEST (R160, R161): its encoding, and what it does in each phase. -/

namespace Sys2Proof.Machine

/-- A format selector above 2 is illegal (R75, R161). -/
theorem rejectsValue_digest {a : BitVec 8} (ha : 3 ≤ a.toNat) :
    RejectsValue (0x0000000006000000 ||| a.setWidth 64) := by
  have hvalue : (0x0000000006000000 : Word) ||| a.setWidth 64 = 0x00000000060000#56 ++ a :=
    append_zero_or_setWidth 0x00000000060000#56 a
  have hnat : (0x00000000060000#56 ++ a).toNat = 0x60000 * 2 ^ 8 + a.toNat := by
    rw [BitVec.toNat_append, ← Nat.shiftLeft_add_eq_or_of_lt a.isLt, Nat.shiftLeft_eq]
    rfl
  have hlt : a.toNat < 256 := a.isLt
  rw [hvalue]
  refine rejectsValue_of_illegalValue (.inr (.inr (.inr (.inr (.inl ?_)))))
  rw [hnat]
  omega

/-- DIGEST, where it is legal, runs the finalize step and formats (R160). -/
theorem exec_digest {s : State} (hp : s.phase = .absorbing ∨ s.phase = .squeezing) (hb : s.buf.length < 136)
    (fmt : Format) : exec (.digest fmt) s = .next (digestOut fmt (finalizeOnce s)) := by
  rw [exec_eq_dispatch, dispatchCommand_runs rfl ((legalIn_digest_iff fmt _).2 hp)]
  exact withBuffer_runs hb

/-- Settles O24: DIGEST is the finalize step, then the string and PHASE; the invariant ties FIN and the buffer to
SQUEEZING, and the other phases refuse the command. -/
theorem digestFormatsTheFront : Obligations.DigestFormatsTheFront := by
  refine ⟨rfl, rfl, rfl, fun _ => rejectsValue_digest, rfl, rfl, rfl, fun s fmt => ⟨fun hp hb => ?_,
    fun hp hb => ?_, fun hp hinv => ?_, fun hp => exec_contract rfl (by simp [hp]) (by rw [hp]; rfl),
    exec_faulted nofun⟩⟩
  · rw [exec_digest (.inl hp) hb, finalizeOnce_absorbing hp, digestOut_eq]
    rfl
  · rw [exec_digest (.inr hp) hb, finalizeOnce_finalized (by simp [hp]), digestOut_eq]
    rfl
  · obtain ⟨-, -, ⟨-, hfin, -, -⟩, ⟨-, hempty, -, -⟩, -⟩ := hinv
    exact ⟨hfin hp, hempty (hfin hp)⟩

end Sys2Proof.Machine
end

section
/-! PROOFS. HASH and VALIDATE (R180, R183, R185, R186): READ_OUT brings back the string of DIGEST, so a hash run from an
idle state observes it, and its shape tells its format (R168). -/

namespace Sys2Proof.Machine

/-! ### READ_OUT (R185) -/

/-- The value last read is no part of what a read brings. -/
theorem readReg_rdata (s : State) (v : Word) (r : WindowReg) : readReg { s with rdata := v } r = readReg s r := by
  cases r <;> rfl

/-- An RD line in an idle state outside FAULTED shows no failure (R189). -/
theorem failureOf_read {s : State} (hp : s.phase ≠ .faulted) (g : ReadReg) :
    failureOf ((HostLine.rd g).seen { s with rdata := readReg s (windowReg g.offset) }) = none := by
  cases g with
  | status => exact (failureOf_status s []).trans (if_neg hp)
  | _ => rfl

/-- RD lines in an idle state outside FAULTED bring each register's value, and write only what the host last read (R53,
R77). -/
theorem runLines_reads (regs : List ReadReg) {s : State} (hb : s.busy = false) (hp : s.phase ≠ .faulted) :
    ∃ r v, runLines (regs.map .rd) s = .next r ∧ r.values = regs.map (fun g => readReg s (windowReg g.offset)) ∧
      failureOf r.seen = none ∧ r.final = { s with rdata := v } := by
  induction regs generalizing s with
  | nil => exact ⟨_, s.rdata, rfl, rfl, rfl, rfl⟩
  | cons g gs ih =>
    have hread : (HostLine.rd g).effect s = .next { s with rdata := readReg s (windowReg g.offset) } := by
      rw [HostLine.effect_rd, hostRead_stated (.inl hb)]
    obtain ⟨r, v, hr, hvalues, hseen, hfinal⟩ := ih (s := { s with rdata := readReg s (windowReg g.offset) }) hb hp
    refine ⟨_, v, runLines_cons hread hr, ?_, ?_, hfinal⟩
    · rw [Run.append_values, hvalues]
      simp only [readReg_rdata]
      rfl
    · rw [Run.append_seen, failureOf_append, failureOf_read hp, hseen]
      rfl

/-- The first OUT words are the first characters of OUTSTR in order (R54). -/
theorem bytesOfWords_outWords (s : State) {n : Nat} (hn : n ≤ 8) :
    bytesOfWords ((List.range n).map (outWord s)) = s.outstr.toList.take (8 * n) := by
  rw [← flatMap_pieces, bytesOfWords, List.flatMap_map]
  refine List.flatMap_congr fun k hk => ?_
  have hlen : ((s.outstr.toList.drop (8 * k)).take 8).length = 8 := by
    rw [List.mem_range] at hk
    rw [List.length_take, List.length_drop, Vector.length_toList]
    omega
  have hword := bytesOfWords_doutOf hlen.le
  rw [hlen, Nat.sub_self, List.replicate_zero, List.append_nil, bytesOfWords, List.flatMap_singleton] at hword
  exact hword

/-- OUTSTR starts with the string written to it (R166). -/
theorem outstrOf_take {str : List Byte} (h : str.length ≤ 64) : (outstrOf str).toList.take str.length = str := by
  refine List.ext_getElem (by simp [h]) fun k hk hk' => ?_
  have hchar := outstrOf_getD str (show k < 64 by omega)
  rw [List.getElem_take, ← List.getD_eq_getElem _ 0, hchar, List.getD_eq_getElem _ 0 hk']

/-- The registers READ_OUT reads for a string of `len` characters (R185). -/
def outRegs (len : Nat) : List ReadReg := ((List.finRange 8).take ((len + 7) / 8)).map .out

theorem readOutLines_eq (len : Nat) : readOutLines len = (outRegs len).map .rd := by
  rw [readOutLines, outRegs, List.map_map]
  rfl

/-- The bytes of those registers hold at least `len` characters (R54, R185). -/
theorem bytesOfWords_outRegs (s : State) {len : Nat} (h : len ≤ 64) :
    (bytesOfWords ((outRegs len).map fun g => readReg s (windowReg g.offset))).take len = s.outstr.toList.take len := by
  have hwords : (outRegs len).map (fun g => readReg s (windowReg g.offset)) =
      (List.range ((len + 7) / 8)).map (outWord s) := by
    have hrange : (List.range ((len + 7) / 8)) = ((List.finRange 8).take ((len + 7) / 8)).map Fin.val := by
      rw [List.map_take, List.map_coe_finRange_eq_range, List.take_range, Nat.min_eq_left (by omega)]
    rw [hrange, outRegs, List.map_map, List.map_map]
    refine List.map_congr_left fun k _ => ?_
    simp only [Function.comp_apply, windowReg_offset, readReg]
  rw [hwords, bytesOfWords_outWords s (by omega), List.take_take, Nat.min_eq_left (by omega)]

/-- READ_OUT of an idle state outside FAULTED returns the string that OUTSTR and OUTLEN hold, with no failure (R185). -/
theorem readOut_string {s : State} {str : List Byte} (hb : s.busy = false) (hp : s.phase ≠ .faulted)
    (hlen : str.length ≤ 64) (hstr : s.outstr = outstrOf str) (houtlen : s.outlen = str.length) :
    ∃ r v, readOut s = .next (str, r) ∧ failureOf r.seen = none ∧ r.final = { s with rdata := v } := by
  obtain ⟨r, v, hr, hvalues, hseen, hfinal⟩ := runLines_reads [.status] hb hp
  rw [List.map_singleton] at hr
  obtain ⟨q, u, hq, hqvalues, hqseen, hqfinal⟩ := runLines_reads (outRegs str.length)
    (s := { s with rdata := v }) hb hp
  have hcount : ((r.values.headD 0).extractLsb' 24 7).toNat = str.length := by
    rw [hvalues]
    exact (congrArg BitVec.toNat (statusOutlen_statusWord s)).trans
      (by rw [houtlen, BitVec.toNat_ofNat, Nat.mod_eq_of_lt (by omega)])
  rw [← readOutLines_eq, ← hfinal] at hq
  have hbytes : (bytesOfWords q.values).take str.length = str := by
    rw [hqvalues, bytesOfWords_outRegs _ hlen]
    exact (congrArg (fun o => o.toList.take str.length) hstr).trans (outstrOf_take hlen)
  refine ⟨r.append q, u, ?_, ?_, hqfinal⟩
  · simp only [readOut, hr, andThen_next, hcount, hq, hbytes]
  · rw [Run.append_seen, failureOf_append, hseen, hqseen]
    rfl

/-! ### HEXDIGEST (R183) -/

/-- Every format's string fits OUTSTR (R31). -/
theorem stringLen_le (fmt : Format) : stringLen fmt ≤ 64 := by cases fmt <;> decide

/-- A HEXDIGEST whose run has ended observes the string it read (R183, R189). -/
theorem hexdigestAfter_ended {lines : List HostLine} {fmt : Format} {s : State} {r out : Run} {str : List Byte}
    (hr : runLines (lines ++ [.cmd (.digest fmt)]) s = .next r) (hout : readOut r.final = .next (str, out))
    (hended : verdict (r.append out).seen = .ended) :
    hexdigestAfter lines fmt s = .next (some str, r.append out) := by
  rw [hexdigestAfter, hr, andThen_next, hout, andThen_next, Run.hashObservation, hended]

/-- HEXDIGEST after lines that leave an idle session, with no failure and no DIGEST so far: the run has ended, and the
string of the finalized lane store is observed (R183, R189). -/
theorem hexdigestAfter_observed {lines : List HostLine} {s : State} {q : Run} (fmt : Format)
    (hq : runLines lines s = .next q) (hseen : failureOf q.seen = none) (hnone : NoDigest q.seen)
    (hp : q.final.phase = .absorbing ∨ q.final.phase = .squeezing) (hbuf : q.final.buf.length < 136)
    (hb : q.final.busy = false) :
    ∃ r v, hexdigestAfter lines fmt s = .next (some (digestString fmt (finalizeOnce q.final).lanes), r) ∧
      verdict r.seen = .ended ∧ r.final = { digestOut fmt (finalizeOnce q.final) with rdata := v } := by
  have hdigest := exec_digest hp hbuf fmt
  have hfields := digestOut_eq fmt (finalizeOnce q.final)
  have hbusy : (digestOut fmt (finalizeOnce q.final)).busy = false := by
    rw [hfields, finalizeOnce_eq]
    exact hb
  generalize digestOut fmt (finalizeOnce q.final) = t at *
  have hdone : t.phase = .done := by rw [hfields]
  have hlen : (digestString fmt (finalizeOnce q.final).lanes).length ≤ 64 := by
    rw [digestString_length]
    exact stringLen_le fmt
  obtain ⟨out, v, hout, houtseen, hfinal⟩ :=
    readOut_string hbusy (by simp [hdone]) hlen (by rw [hfields]) (by rw [hfields])
  have hrun := runLines_append hq (runLines_cons (line := .cmd (.digest fmt)) hdigest (runLines_nil t))
  refine ⟨_, v, hexdigestAfter_ended hrun hout ?_, ?_, hfinal⟩
  all_goals
    rw [Run.append_assoc, Run.append_seen, verdict_append_open hseen hnone]
    exact verdict_digest_done hdone hbusy houtseen

/-! ### HASH (R180, R186) -/

/-- INIT starts a session in every state (R131). -/
theorem exec_init (s : State) : exec .init s = .next (newSession s) := by
  rw [exec_eq_dispatch, dispatchCommand_runs rfl (legalIn_init _)]
  rfl

/-- HASH_NEW's two ABSORB_BYTES as one cut into chunks (R180, R181). -/
theorem hashNewLines_eq (data salt : Option (List Byte)) :
    hashNewLines data salt =
      .cmd .init :: (wordChunks (salt.getD []) ++ wordChunks (data.getD [])).flatMap absorbChunk := by
  rw [hashNewLines, absorbLines_eq, absorbLines_eq, List.flatMap_append]

/-- No line of HASH_NEW is a DIGEST (R180). -/
theorem digest_notMem_hashNewLines (data salt : Option (List Byte)) (fmt : Format) :
    HostLine.cmd (.digest fmt) ∉ hashNewLines data salt := by
  simp [hashNewLines_eq, absorbChunk]

/-- A run of lines without DIGEST issues none (R189). -/
theorem noDigest_of_runLines {lines : List HostLine} {s : State} {r : Run} (h : runLines lines s = .next r)
    (hlines : ∀ fmt, .cmd (.digest fmt) ∉ lines) : NoDigest r.seen := by
  intro i hi
  have hmem := issued_mem_runLines h hi
  cases i with
  | digest fmt => exact absurd hmem (hlines fmt)
  | _ => rfl

/-- A run without a verdict has shown no failure (R189). -/
theorem failureOf_unfinished {a : List Seen} (h : verdict a = .unfinished) : failureOf a = none := by
  refine Option.eq_none_iff_forall_ne_some.2 fun err herr => ?_
  rw [verdict_eq_failed.2 herr] at h
  cases h

/-- HASH_NEW absorbs the salt, then the data, in a new session, with no failure (R180). -/
theorem runLines_hashNewLines (data salt : Option (List Byte)) (s : State) :
    ∃ r v, runLines (hashNewLines data salt) s = .next r ∧ failureOf r.seen = none ∧
      r.final = { absorbBytes (salt.getD [] ++ data.getD []) (newSession s) with din := v } := by
  have hsized : ∀ c ∈ wordChunks (salt.getD []) ++ wordChunks (data.getD []), ChunkSized c :=
    List.forall_mem_append.2 ⟨wordChunks_sized _, wordChunks_sized _⟩
  obtain ⟨r, hr, -, hverdict, hfinal⟩ :=
    runLines_chunks_absorbing (s := newSession s) hsized rfl (by rw [newSession_buf]; decide)
  rw [List.flatten_append, wordChunks_flatten, wordChunks_flatten] at hfinal
  have hrun := runLines_cons (line := .cmd .init) (exec_init s) hr
  rw [← hashNewLines_eq] at hrun
  refine ⟨_, _, hrun, ?_, hfinal⟩
  exact (failureOf_status (newSession s) r.seen).trans ((if_neg (by simp)).trans (failureOf_unfinished hverdict))

/-- HASH from an idle state ends in DONE and observes the string of the finalized session (R186, R189). -/
theorem hashRun_observed (data salt : Option (List Byte)) (fmt : Format) {s : State} (hb : s.busy = false) :
    ∃ r, hashRun data salt fmt s = .next
        (some (digestString fmt (doFinalize (absorbBytes (salt.getD [] ++ data.getD []) (newSession s))).lanes), r) ∧
      verdict r.seen = .ended ∧ r.final.phase = .done ∧ r.final.busy = false := by
  obtain ⟨q, v, hq, hseen, hfinal⟩ := runLines_hashNewLines data salt s
  have hphase : q.final.phase = .absorbing := by rw [hfinal]; exact absorbBytes_phase _ _
  have hbuf : q.final.buf.length < 136 := by
    rw [hfinal]
    exact absorbBytes_buf_lt (by rw [newSession_buf]; decide) _
  have hbusy : q.final.busy = false := by
    rw [hfinal, absorbBytes_eq]
    exact hb
  obtain ⟨r, u, hr, hverdict, hrfinal⟩ := hexdigestAfter_observed fmt hq hseen
    (noDigest_of_runLines hq (digest_notMem_hashNewLines data salt)) (.inl hphase) hbuf hbusy
  rw [finalizeOnce_absorbing hphase] at hr hrfinal
  refine ⟨r, ?_, hverdict, ?_, ?_⟩
  · rw [hashRun, hr, hfinal]
    rfl
  · rw [hrfinal, digestOut_eq]
  · rw [hrfinal, digestOut_eq]
    exact hbusy

/-- HASH on a fresh session is the string of a finalized lane store (R186). -/
theorem hashString_eq (data salt : Option (List Byte)) (fmt : Format) :
    hashString data salt fmt =
      some (digestString fmt
        (doFinalize (absorbBytes (salt.getD [] ++ data.getD []) (newSession State.reset))).lanes) := by
  obtain ⟨r, hr, -⟩ := hashRun_observed data salt fmt (s := State.reset) rfl
  rw [hashString, hr]

/-! ### VALIDATE (R186) -/

/-- Length and shape tell a string's format (R168, R186). -/
theorem detectFormat_formatString {fmt : Format} {raw : List Byte} (hraw : raw.length = digestLen fmt) :
    detectFormat (formatString fmt (hexEncode raw)) = some fmt := by
  have hlen := formatString_length hraw
  cases fmt with
  | standard => simp [detectFormat, hlen, stringLen]
  | uuid =>
    have hprefix : (formatString .uuid (hexEncode raw)).take 6 = uuidPrefix := rfl
    exact if_pos ⟨hlen, hprefix⟩
  | short =>
    have hcolon : charColon ∈ formatString .short (hexEncode raw) := by simp [formatString, formatShort]
    simp [detectFormat, hlen, hcolon, stringLen]

/-- The shape of a hash is its format's (R168). -/
theorem detectFormat_hash {data salt : Option (List Byte)} {fmt : Format} {cand : List Byte}
    (h : hashString data salt fmt = some cand) : detectFormat cand = some fmt := by
  rw [hashString_eq, Option.some_inj] at h
  rw [← h]
  exact detectFormat_formatString (by rw [List.length_take, rateBytes_length, Nat.min_eq_left (digestLen_le fmt)])

/-- Settles O60: VALIDATE compares with the hash of the format it detects, which for a hash is the hash's own. -/
theorem validateAcceptsExactlyHashes : Obligations.ValidateAcceptsExactlyHashes := by
  intro data cand salt
  constructor
  · intro h
    unfold validate at h
    split at h
    next fmt _ => exact ⟨fmt, of_decide_eq_true h⟩
    · cases h
  · rintro ⟨fmt, h⟩
    simp only [validate, detectFormat_hash h, h, decide_true]

end Sys2Proof.Machine
end

section
/-! PROOFS. The closed form of HASH and its salt laws (R187, R188), and the hash runs that have not ended or have failed
(R189). -/

namespace Sys2Proof.Machine

/-! ### Whole blocks (R187) -/

/-- The lane store `l` after the first `n` blocks of `m` (R187). -/
def absorbBlocks (n : Nat) (m : List Byte) (l : Lanes) : Lanes :=
  (List.range n).foldl (fun l k => absorbBlock ((m.drop (136 * k)).take 136) l) l

theorem absorbBlocks_succ (n : Nat) (m : List Byte) (l : Lanes) :
    absorbBlocks (n + 1) m l = absorbBlock ((m.drop (136 * n)).take 136) (absorbBlocks n m l) := by
  rw [absorbBlocks, absorbBlocks, List.range_succ, List.foldl_concat]

theorem absorbFullBlocks_eq (m : List Byte) :
    absorbFullBlocks m = absorbBlocks (m.length / 136) m (Vector.replicate 25 0) := rfl

/-- From an empty buffer `n` whole blocks go into the lane store one by one, and leave the buffer empty (R132). -/
theorem absorbBytes_blocks {n : Nat} {m : List Byte} {s : State} (hn : 136 * n ≤ m.length) (hb : s.buf = []) :
    absorbBytes (m.take (136 * n)) s = { s with lanes := absorbBlocks n m s.lanes, buf := [] } := by
  induction n with
  | zero =>
    rw [← hb]
    rfl
  | succ n ih =>
    have hlen : ((m.drop (136 * n)).take 136).length = 136 := by
      rw [List.length_take, List.length_drop]
      omega
    have hne : (m.drop (136 * n)).take 136 ≠ [] := List.ne_nil_of_length_pos (by omega)
    have hfills := absorbBytes_fills (s := { s with lanes := absorbBlocks n m s.lanes, buf := [] })
      ((Nat.zero_add _).trans hlen) hne
    rw [Nat.mul_succ, List.take_add, absorbBytes_append, ih (by omega), hfills, absorbBlocks_succ, List.nil_append]

/-- A new session holds the full blocks in the lane store and the rest in the buffer (R187). -/
theorem absorbBytes_newSession (m : List Byte) (s : State) :
    absorbBytes m (newSession s) =
      { newSession s with lanes := absorbFullBlocks m, buf := m.drop (136 * (m.length / 136)) } := by
  have hrest : (m.drop (136 * (m.length / 136))).length < 136 := by
    rw [List.length_drop]
    omega
  conv_lhs => rw [← List.take_append_drop (136 * (m.length / 136)) m]
  rw [absorbBytes_append, absorbBytes_blocks (Nat.mul_div_le _ _) (newSession_buf s),
    absorbBytes_within (by simpa using hrest), absorbFullBlocks_eq]
  rfl

/-- The finalized lane store of a new session is Z of R187. -/
theorem doFinalize_newSession_lanes (m : List Byte) (s : State) :
    (doFinalize (absorbBytes m (newSession s))).lanes = finalLanes m := by
  rw [doFinalize_lanes, absorbBytes_newSession]
  rfl

/-- DIGEST's string of Z is the closed form of R187. -/
theorem digestString_finalLanes (m : List Byte) (fmt : Format) :
    digestString fmt (finalLanes m) = closedHash m fmt := rfl

/-! ### Runs that have not ended, and runs that have failed (R189) -/

/-- Lines without DIGEST have no end (R189). -/
theorem verdict_ne_ended_of_noDigest {lines : List HostLine} {s : State} {r : Run} (h : runLines lines s = .next r)
    (hlines : ∀ fmt, .cmd (.digest fmt) ∉ lines) : verdict r.seen ≠ .ended := by
  intro hended
  have hend := (verdict_eq_ended.1 hended).2
  rw [digestEnded_of_noDigest (noDigest_of_runLines h hlines)] at hend
  cases hend

/-- RD lines answer in every state (R53). -/
theorem runLines_reads_answer (regs : List ReadReg) (s : State) : ∃ r, runLines (regs.map .rd) s = .next r := by
  induction regs generalizing s with
  | nil => exact ⟨_, rfl⟩
  | cons g gs ih =>
    obtain ⟨r, hr⟩ := ih (hostRead (windowReg g.offset) s)
    exact ⟨_, runLines_cons (HostLine.effect_rd g s) hr⟩

/-- A host program answers where its first part does and whatever goes on from there does. -/
theorem andThen_answers {α β : Type} {o : HostResult α} {f : α → HostResult β} (ho : ∃ x, o = .next x)
    (hf : ∀ x, ∃ y, f x = .next y) : ∃ y, andThen o f = .next y := by
  obtain ⟨x, rfl⟩ := ho
  exact hf x

/-- READ_OUT answers in every state, whatever OUTSTR and OUTLEN hold (R185). -/
theorem readOut_answers (s : State) : ∃ out, readOut s = .next out := by
  refine andThen_answers (runLines_reads_answer [.status] s) fun r => andThen_answers ?_ fun q => ⟨_, rfl⟩
  rw [readOutLines_eq]
  exact runLines_reads_answer _ r.final

/-- A HEXDIGEST whose run has failed observes no string (R183, R189). -/
theorem hexdigestAfter_failed {lines : List HostLine} {fmt : Format} {s : State} {r : Run} {err : BitVec 4}
    (hr : runLines (lines ++ [.cmd (.digest fmt)]) s = .next r) (hfailed : failureOf r.seen = some err) :
    ∃ u, hexdigestAfter lines fmt s = .next (none, u) ∧ verdict u.seen = .failed err := by
  obtain ⟨⟨str, out⟩, hout⟩ := readOut_answers r.final
  have hverdict : verdict (r.append out).seen = .failed err := verdict_append_failed hfailed out.seen
  refine ⟨r.append out, ?_, hverdict⟩
  rw [hexdigestAfter, hr, andThen_next, hout, andThen_next, Run.hashObservation, hverdict]

/-- After lines that leave DONE or FAULTED, DIGEST is refused (R203): the run has failed, with the reason of its first
failure, be it in the lines or the refused DIGEST's (R189). -/
theorem hexdigestAfter_refused {lines : List HostLine} {s : State} {q : Run} (fmt : Format)
    (hq : runLines lines s = .next q) (hp : q.final.phase = .done ∨ q.final.phase = .faulted) :
    ∃ r, hexdigestAfter lines fmt s = .next (none, r) ∧
      verdict r.seen = .failed ((failureOf q.seen).getD (refuseCommand q.final).err.code) := by
  have hl : legalIn (.digest fmt) q.final.phase = false := by
    rcases hp with hp | hp <;> rw [hp] <;> rfl
  have hrun := runLines_append hq
    (runLines_cons (line := .cmd (.digest fmt)) (exec_refused rfl hl) (runLines_nil (refuseCommand q.final)))
  refine hexdigestAfter_failed hrun ?_
  have hdigest : failureOf [.issued (.digest fmt), .status (statusWord (refuseCommand q.final))] =
      some (refuseCommand q.final).err.code := (failureOf_status _ []).trans (if_pos rfl)
  rw [Run.append_seen, failureOf_append]
  cases failureOf q.seen with
  | none => exact hdigest
  | some err => rfl

/-- Settles O58: the run of HASH observes the string of Z; without a DIGEST there is no end; and a DIGEST in DONE or
FAULTED is refused, which fails the run. -/
theorem hashIsTheClosedForm : Obligations.HashIsTheClosedForm := by
  refine ⟨fun data salt fmt s hb => ?_, fun lines s r => verdict_ne_ended_of_noDigest,
    fun lines fmt s q hq hp => ?_, fun fmt s hp => ?_⟩
  · rw [← digestString_finalLanes, ← doFinalize_newSession_lanes _ s]
    exact hashRun_observed data salt fmt hb
  · obtain ⟨r, hr, hverdict⟩ := hexdigestAfter_refused fmt hq hp
    exact ⟨r, _, hr, hverdict⟩
  · rw [← refuseCommand_err_code]
    exact hexdigestAfter_refused fmt (runLines_nil s) hp

/-! ### The salt laws (R188) -/

/-- HASH on a fresh session is the closed form of the salt and the data behind it (R186, R187). -/
theorem hashString_closedHash (data salt : Option (List Byte)) (fmt : Format) :
    hashString data salt fmt = some (closedHash (salt.getD [] ++ data.getD []) fmt) := by
  rw [hashString_eq, doFinalize_newSession_lanes, digestString_finalLanes]

/-- Settles O59: by the closed form HASH depends on salt ++ data only, with the empty sequence for what is absent. -/
theorem saltLaws : Obligations.SaltLaws := by
  refine ⟨fun data fmt => ?_, fun salt fmt => ?_, fun d salt fmt => ?_⟩
  all_goals
    rw [hashString_closedHash, hashString_closedHash]
    rfl

end Sys2Proof.Machine
end

section
/-! PROOFS. The engine's faults (R200 to R208): where CONTRACT and ILLEGAL come from, what FAULTED lets through, a write
while BUSY = 1 (R205), and a host that does nothing (R214). -/

namespace Sys2Proof.Machine

/-! ### Where a command value faults -/

/-- The table of R130 leaves a fault nowhere that R203 lists the command. -/
theorem phaseAfter_ne_faulted_of_legalIn {i : Instr} {p : Phase} (hl : legalIn i p = true) :
    phaseAfter i p ≠ .faulted := by
  revert hl
  cases i <;> cases p <;> simp [legalIn, phaseAfter]

/-- A command that runs does not fault. -/
theorem effectState_phase_ne_faulted {i : Instr} {s : State} (hl : legalIn i s.phase = true) :
    (effectState i s).phase ≠ .faulted := by
  rw [effectState_phase hl]
  exact phaseAfter_ne_faulted_of_legalIn hl

/-- Settles O30: outside FAULTED the phases of the statement are those where `legalIn` is false, and there the dispatch
raises CONTRACT; elsewhere the command runs. -/
theorem contractFaultByPhase : Obligations.ContractFaultByPhase := by
  intro i s hw hbuf hsqpos hp contract
  have hcontract : contract ↔ legalIn i s.phase = false := by
    cases hphase : s.phase with
    | faulted => exact absurd hphase hp
    | _ => cases i <;> simp [contract, hphase, legalIn]
  refine ⟨fun hc => exec_contract hw hp (hcontract.1 hc), fun hc => ?_⟩
  have hl : legalIn i s.phase = true := eq_true_of_ne_false (mt hcontract.2 hc)
  exact ⟨_, exec_runs hw hl hbuf hsqpos, effectState_phase_ne_faulted hl⟩

/-- A decoded command that faults outside FAULTED raised CONTRACT: its operand is legal, and an effect that runs does not
fault (R203). -/
theorem raised_contract_of_decode {w : Word} {i : Instr} {s t : State} (hi : decode w = .ok i)
    (hexec : exec i s = .next t) (hp : s.phase ≠ .faulted) (hfault : t.phase = .faulted) :
    t = raiseFault .contract s := by
  have hw : i.wellFormed = true := (encodeOfDecode w i hi).1
  rcases exec_next_cases hexec with ⟨hf, -⟩ | ⟨hnw, -⟩ | ⟨-, -, -, ht⟩ | ⟨-, hl, rfl⟩
  · exact absurd hf hp
  · exact absurd hw (ne_true_of_eq_false hnw)
  · exact ht
  · exact absurd hfault (effectState_phase_ne_faulted hl)

/-- Settles O33: an illegal value is rejected before any phase is looked at, and a legal value is a decoded command. -/
theorem faultsArePrecise : Obligations.FaultsArePrecise := by
  intro w s t hp hout hfault
  refine ⟨fun hill => ?_, fun hlegal => ?_⟩
  · have hreject := rejectsValue_of_illegalValue hill s
    rw [if_neg hp] at hreject
    cases hreject.symm.trans hout
    rfl
  · rcases outcome_next_cases hout with ⟨i, hi, hexec⟩ | ⟨herror, -⟩
    · exact raised_contract_of_decode hi hexec hp hfault
    · exact absurd ((decode_error_iff w).1 herror) hlegal

/-! ### What FAULTED lets through -/

/-- INIT's value starts a session in every phase (R131, R207). -/
theorem outcome_init (s : State) : outcome 0x0000000001000000 s = .next (newSession s) :=
  (outcome_encode (i := .init) rfl s).trans (exec_init s)

/-- Settles O32: FAULTED ignores a value other than INIT's, INIT starts a session, and a DIN write does not look at the
phase. -/
theorem faultedIgnoresAllButInit : Obligations.FaultedIgnoresAllButInit := fun s hp =>
  ⟨fun _ hw => outcome_faulted hw hp,
    ⟨newSession s, outcome_init s, newSession_phase s, newSession_err s⟩,
    fun v n rest hb hh => windowWrites s 0x008 v n rest hb hh (by decide) (by decide) (by decide)⟩

/-! ### Writes while BUSY = 1, and no event at all -/

/-- Settles O46: a write that is not the last access of its busy period is `afterBusyAccess`, then counted. -/
theorem busyWritesAreDiscarded : Obligations.BusyWritesAreDiscarded :=
  fun _ _ _ _ _ _ hp hl hh hlt hal => step_busy_more hp hl hh (decide_eq_true (accessRefusal_aligned hlt hal))

/-- Settles O52: with no host event left, a step has nothing to apply. -/
theorem idleEngineKeepsItsState : Obligations.IdleEngineKeepsItsState := by
  intro s hh
  simp only [step, hh]

end Sys2Proof.Machine
end

section
/-! PROOFS. The reset event (R220), and what it leaves compared with what INIT leaves (R221). -/

namespace Sys2Proof.Machine

/-- The step of a reset event, whatever is in progress (R220). -/
theorem step_reset {s : State} {rest : List HostEvent} (hh : s.host = .reset :: rest) :
    step s = .next (resetEngine { s with host := rest }) := by
  simp only [step, hh, hostEvent]

/-- Reset is a new session that also clears DIN, VIOL and the command in progress: the three pieces of engine state that
INIT leaves alone (R131, R220). -/
theorem resetEngine_eq_newSession (s : State) :
    resetEngine s = { newSession s with din := 0, viol := false, pending := none } := rfl

/-- While nothing is in progress, only DIN is left to tell reset from INIT (R221). -/
theorem resetEngine_idle {s : State} (hb : s.busy = false) (hv : s.viol = false) :
    resetEngine s = { newSession s with din := 0 } := by
  have hp : (newSession s).pending = none := by simpa [State.busy] using hb
  have hviol : (newSession s).viol = false := hv
  rw [resetEngine_eq_newSession, ← hp, ← hviol]

/-- Settles O50: the step is `resetEngine`, whose fields are the reset values, and idle it is INIT's new session with DIN
cleared. -/
theorem resetAbandonsAndClears : Obligations.ResetAbandonsAndClears := by
  intro s rest hh
  have hstep := step_reset hh
  refine ⟨⟨_, hstep, fun i _ => laneAt_zero i, rfl, rfl, rfl, rfl, rfl, rfl, rfl, rfl, rfl, rfl, rfl, rfl, rfl, rfl⟩,
    fun u hb hv hinit => ?_⟩
  cases (exec_init { s with host := rest }).symm.trans hinit
  rw [hstep, resetEngine_idle (s := { s with host := rest }) hb hv]

end Sys2Proof.Machine
end
